-- ==== Sys2Proof/Word.lean ====
section
/-! DEFINITION. The word types of the CORE: every value the spec gives a width (spec/00_scope.md R8, R9, R12). -/

namespace Sys2Proof

/-- A bus word, a segment, a key segment, a command word: 32 bits (R8, R9). -/
abbrev Word := BitVec 32

/-- An entry of the permutation table: 8 bits (R9, R24). -/
abbrev Byte := BitVec 8

/-- The value of one hex digit. -/
abbrev Nibble := BitVec 4

/-- The source's Block: 256 bits (R8). -/
abbrev Block := BitVec 256

/-- An expanded segment ("wide48"): 48 bits (R8, R23). -/
abbrev Wide := BitVec 48

/-- A code point of the seed: 21 bits (R9, R28). -/
abbrev CodePoint := BitVec 21

end Sys2Proof
end

