-- ==== Sys2Proof/Syntax.lean ====
section
/-! DEFINITION. The 18 commands of the CORE (spec/30_encoding.md R95, spec/opcode_table.json), one constructor per row. -/

namespace Sys2Proof

/-- A command. Format N has no operand (R91); format S carries a segment and key index 0..7 (R92); format P carries a 9-bit table size, of which 0..256 are legal (R93, see `Instr.wf`). -/
inductive Instr where
  /-- NOP, OP 0x00, format N (R210) -/
  | nop
  /-- LDBLK, OP 0x01, format N (R113) -/
  | ldblk
  /-- LDKEY i, OP 0x02, format S (R114) -/
  | ldkey (i : Fin 8)
  /-- ENC, OP 0x03, format N (R192) -/
  | enc
  /-- DEC, OP 0x04, format N (R194) -/
  | dec
  /-- DERIVEKEY, OP 0x05, format N (R157) -/
  | deriveKey
  /-- DERIVEPERM n, OP 0x06, format P (R134) -/
  | derivePerm (n : BitVec 9)
  /-- PERM, OP 0x07, format N (R136) -/
  | perm
  /-- INVPERM, OP 0x08, format N (R138) -/
  | invPerm
  /-- INVERT, OP 0x09, format N (R140) -/
  | invert
  /-- KMIX i, OP 0x0A, format S (R117) -/
  | kmix (i : Fin 8)
  /-- EXPAND i, OP 0x0B, format S (R173) -/
  | expand (i : Fin 8)
  /-- SUBST i, OP 0x0C, format S (R174) -/
  | subst (i : Fin 8)
  /-- RSUBST i, OP 0x0D, format S (R175) -/
  | rsubst (i : Fin 8)
  /-- REXPAND i, OP 0x0E, format S (R176) -/
  | rexpand (i : Fin 8)
  /-- CLRHEX, OP 0x0F, format N (R115) -/
  | clrHex
  /-- CLRSEED, OP 0x10, format N (R152) -/
  | clrSeed
  /-- CLRERR, OP 0x11, format N (R211) -/
  | clrErr
  deriving DecidableEq, Repr

end Sys2Proof
end

