-- ==== Sys2Proof/WellFormed.lean ====
section
/-! DEFINITION. Which commands have a legal word: the one check is SIZE ≤ 256 for format P (spec/30_encoding.md R93, R97). The index of format S is 0..7 by its type, "every value 0..7 is legal" (R92). -/

namespace Sys2Proof

/-- The command has a legal word: a table size is at most 256 (R93). -/
def Instr.wf (i : Instr) : Bool :=
  match i with
  | .derivePerm n => decide (n.toNat ≤ 256)
  | .nop => true
  | .ldblk => true
  | .ldkey _ => true
  | .enc => true
  | .dec => true
  | .deriveKey => true
  | .perm => true
  | .invPerm => true
  | .invert => true
  | .kmix _ => true
  | .expand _ => true
  | .subst _ => true
  | .rsubst _ => true
  | .rexpand _ => true
  | .clrHex => true
  | .clrSeed => true
  | .clrErr => true

end Sys2Proof
end

