-- ==== Sys2Proof/Decode.lean ====
section
/-! DEFINITION. Command words (spec/30_encoding.md R90 to R97): the decoder, total on all 2^32 words and rejecting by name; then the encoder, from the same tables. -/

namespace Sys2Proof

/-- Why a word is illegal. All three end with ILLEGAL_CMD (R97, R212). -/
inductive DecodeError where
  /-- OP is 0x12..0xFF -/
  | illegalOpcode
  /-- a bit of the format's "must be 0" field is 1 -/
  | mustBeZero
  /-- a format P word with SIZE above 256 -/
  | sizeTooLarge
  deriving DecidableEq, Repr

/-- The three command formats (R91 to R93). -/
inductive Format where
  | N
  | S
  | P
  deriving DecidableEq, Repr

/-- Field OP = CMD[7:0] (R90). -/
def opField (c : Word) : BitVec 8 := c.extractLsb' 0 8

/-- Field IDX = CMD[10:8], unsigned, neither scaled nor sign-extended (R92, R94). -/
def idxField (c : Word) : Fin 8 := (c.extractLsb' 8 3).toFin

/-- Field SIZE = CMD[16:8], unsigned (R93, R94). -/
def sizeField (c : Word) : BitVec 9 := c.extractLsb' 8 9

/-- The format of each opcode; 0x12..0xFF have none (R95). -/
def formatOf (op : BitVec 8) : Option Format :=
  match op.toNat with
  | 0x00 => some .N
  | 0x01 => some .N
  | 0x02 => some .S
  | 0x03 => some .N
  | 0x04 => some .N
  | 0x05 => some .N
  | 0x06 => some .P
  | 0x07 => some .N
  | 0x08 => some .N
  | 0x09 => some .N
  | 0x0A => some .S
  | 0x0B => some .S
  | 0x0C => some .S
  | 0x0D => some .S
  | 0x0E => some .S
  | 0x0F => some .N
  | 0x10 => some .N
  | 0x11 => some .N
  | _ => none

/-- The command an opcode selects (R95), given the fields of the word; a format N command uses neither. -/
def commandOf (op : BitVec 8) (i : Fin 8) (n : BitVec 9) : Option Instr :=
  match op.toNat with
  | 0x00 => some .nop
  | 0x01 => some .ldblk
  | 0x02 => some (.ldkey i)
  | 0x03 => some .enc
  | 0x04 => some .dec
  | 0x05 => some .deriveKey
  | 0x06 => some (.derivePerm n)
  | 0x07 => some .perm
  | 0x08 => some .invPerm
  | 0x09 => some .invert
  | 0x0A => some (.kmix i)
  | 0x0B => some (.expand i)
  | 0x0C => some (.subst i)
  | 0x0D => some (.rsubst i)
  | 0x0E => some (.rexpand i)
  | 0x0F => some .clrHex
  | 0x10 => some .clrSeed
  | 0x11 => some .clrErr
  | _ => none

/-- The tests of R96 in its order: the first that a word fails, or none. -/
def illegality (c : Word) : Option DecodeError :=
  match formatOf (opField c) with
  | none => some .illegalOpcode
  | some .N => if c.extractLsb' 8 24 ≠ 0 then some .mustBeZero else none
  | some .S => if c.extractLsb' 11 21 ≠ 0 then some .mustBeZero else none
  | some .P =>
    if c.extractLsb' 17 15 ≠ 0 then some .mustBeZero
    else if (sizeField c).toNat > 256 then some .sizeTooLarge
    else none

/-- The decoder of R96. Whether a word is legal depends on the word alone. -/
def decode (c : Word) : Except DecodeError Instr :=
  match illegality c with
  | some e => .error e
  | none =>
    match commandOf (opField c) (idxField c) (sizeField c) with
    | some i => .ok i
    | none => .error .illegalOpcode

/-- The opcode of each command (R95). -/
def opcode (i : Instr) : BitVec 8 :=
  match i with
  | .nop => 0x00#8
  | .ldblk => 0x01#8
  | .ldkey _ => 0x02#8
  | .enc => 0x03#8
  | .dec => 0x04#8
  | .deriveKey => 0x05#8
  | .derivePerm _ => 0x06#8
  | .perm => 0x07#8
  | .invPerm => 0x08#8
  | .invert => 0x09#8
  | .kmix _ => 0x0A#8
  | .expand _ => 0x0B#8
  | .subst _ => 0x0C#8
  | .rsubst _ => 0x0D#8
  | .rexpand _ => 0x0E#8
  | .clrHex => 0x0F#8
  | .clrSeed => 0x10#8
  | .clrErr => 0x11#8

/-- A format N word: bits 31:8 zero (R91). -/
def wordN (op : BitVec 8) : Word := op.setWidth 32

/-- A format S word: `OP | i << 8` (R92, R98). -/
def wordS (op : BitVec 8) (i : Fin 8) : Word := op.setWidth 32 ||| (BitVec.ofNat 32 i.val <<< 8)

/-- A format P word: `OP | n << 8` (R93, R98). -/
def wordP (op : BitVec 8) (n : BitVec 9) : Word := op.setWidth 32 ||| (n.setWidth 32 <<< 8)

/-- The command word of a command (R91 to R95, R98). -/
def encode (i : Instr) : Word :=
  match i with
  | .nop => wordN (opcode .nop)
  | .ldblk => wordN (opcode .ldblk)
  | .ldkey k => wordS (opcode (.ldkey k)) k
  | .enc => wordN (opcode .enc)
  | .dec => wordN (opcode .dec)
  | .deriveKey => wordN (opcode .deriveKey)
  | .derivePerm n => wordP (opcode (.derivePerm n)) n
  | .perm => wordN (opcode .perm)
  | .invPerm => wordN (opcode .invPerm)
  | .invert => wordN (opcode .invert)
  | .kmix k => wordS (opcode (.kmix k)) k
  | .expand k => wordS (opcode (.expand k)) k
  | .subst k => wordS (opcode (.subst k)) k
  | .rsubst k => wordS (opcode (.rsubst k)) k
  | .rexpand k => wordS (opcode (.rexpand k)) k
  | .clrHex => wordN (opcode .clrHex)
  | .clrSeed => wordN (opcode .clrSeed)
  | .clrErr => wordN (opcode .clrErr)

/-- One row of spec/opcode_table.json: a word belongs to it when `word &&& mask = value` (its "match"), and, for DERIVEPERM, the row's constraint SIZE ≤ 256 holds. -/
structure OpcodeRow where
  mnemonic : String
  value : Word
  mask : Word
  deriving DecidableEq, Repr

/-- spec/opcode_table.json, row by row, in its order. -/
def opcodeTable : List OpcodeRow :=
  [ ⟨"NOP", 0x00000000#32, 0xFFFFFFFF#32⟩,
    ⟨"LDBLK", 0x00000001#32, 0xFFFFFFFF#32⟩,
    ⟨"LDKEY", 0x00000002#32, 0xFFFFF8FF#32⟩,
    ⟨"ENC", 0x00000003#32, 0xFFFFFFFF#32⟩,
    ⟨"DEC", 0x00000004#32, 0xFFFFFFFF#32⟩,
    ⟨"DERIVEKEY", 0x00000005#32, 0xFFFFFFFF#32⟩,
    ⟨"DERIVEPERM", 0x00000006#32, 0xFFFE00FF#32⟩,
    ⟨"PERM", 0x00000007#32, 0xFFFFFFFF#32⟩,
    ⟨"INVPERM", 0x00000008#32, 0xFFFFFFFF#32⟩,
    ⟨"INVERT", 0x00000009#32, 0xFFFFFFFF#32⟩,
    ⟨"KMIX", 0x0000000A#32, 0xFFFFF8FF#32⟩,
    ⟨"EXPAND", 0x0000000B#32, 0xFFFFF8FF#32⟩,
    ⟨"SUBST", 0x0000000C#32, 0xFFFFF8FF#32⟩,
    ⟨"RSUBST", 0x0000000D#32, 0xFFFFF8FF#32⟩,
    ⟨"REXPAND", 0x0000000E#32, 0xFFFFF8FF#32⟩,
    ⟨"CLRHEX", 0x0000000F#32, 0xFFFFFFFF#32⟩,
    ⟨"CLRSEED", 0x00000010#32, 0xFFFFFFFF#32⟩,
    ⟨"CLRERR", 0x00000011#32, 0xFFFFFFFF#32⟩ ]

/-- The mnemonic of each command (R95, R98). -/
def mnemonic (i : Instr) : String :=
  match i with
  | .nop => "NOP"
  | .ldblk => "LDBLK"
  | .ldkey _ => "LDKEY"
  | .enc => "ENC"
  | .dec => "DEC"
  | .deriveKey => "DERIVEKEY"
  | .derivePerm _ => "DERIVEPERM"
  | .perm => "PERM"
  | .invPerm => "INVPERM"
  | .invert => "INVERT"
  | .kmix _ => "KMIX"
  | .expand _ => "EXPAND"
  | .subst _ => "SUBST"
  | .rsubst _ => "RSUBST"
  | .rexpand _ => "REXPAND"
  | .clrHex => "CLRHEX"
  | .clrSeed => "CLRSEED"
  | .clrErr => "CLRERR"

/-- Byte k of a bus word for a host that views it as 4 bytes: bits 7:0 at the lowest byte address (R71). -/
def laneByte (v : Word) (k : Fin 4) : Byte := v.extractLsb' (8 * k.val) 8

/-- The bus word whose four byte lanes are given, lowest byte address first (R71). -/
def wordOfLanes (b0 b1 b2 b3 : Byte) : Word := (b3 ++ b2 ++ b1 ++ b0 : BitVec (8 + 8 + 8 + 8))

/-- The word an instruction's bits make: bit 0 is bit 0 of the word, and the bits above `nbits` are 0.
The four bytes are laid out in the lanes of R71 and read back as one word. -/
def tableWord (nbits w : Nat) : Word :=
  let b := fun k => BitVec.ofNat 8 (w % 2 ^ nbits / 2 ^ (8 * k))
  wordOfLanes (b 0) (b 1) (b 2) (b 3)

/-- The command the decoder reads from a table row's bits; none where it refuses. -/
def decodeTableWord (nbits w : Nat) : Option Instr :=
  match decode (tableWord nbits w) with
  | .ok i => some i
  | .error _ => none

end Sys2Proof
end

