-- ==== Sys2Proof/Config.lean ====
section
/-! DEFINITION. What the spec leaves to the implementation (spec/00_scope.md R10) and the one value reset does not fix (spec/70_reset_and_hazards.md R251). Every constant named Config.… is opaque: no proof sees what it computes. -/

namespace Sys2Proof

/-- The four segment mappings as plain functions (R170).
The operations of the machine take them as an argument, so they can be run on a reference set of mappings too.
The field defaults are the spec's identity mappings ID (92_eei_decisions.md D17, "one legal instance" by C2); they are used for nothing but to show that `SegTransform` has an element. -/
structure SegMaps where
  /-- `expand(seg32) -> wide48` -/
  expand : Word → Wide := fun x => x ++ x.extractLsb' 16 16
  /-- `substitute(wide48) -> seg32` -/
  subst : Wide → Word := fun w => w.extractLsb' 16 32
  /-- `reverseSubstitute(seg32) -> wide48` -/
  rsubst : Word → Wide := fun y => y ++ y.extractLsb' 16 16
  /-- `reverseExpand(wide48) -> seg32` -/
  rexpand : Wide → Word := fun w => w.extractLsb' 16 32

/-- F(x) = SUBST(EXPAND(x)) (R170). -/
def SegMaps.forward (m : SegMaps) (x : Word) : Word := m.subst (m.expand x)

/-- G(y) = REXPAND(RSUBST(y)) (R170). -/
def SegMaps.backward (m : SegMaps) (y : Word) : Word := m.rexpand (m.rsubst y)

/-- The identity mappings ID of D17 meet the round-trip contract: F and G are both the identity. -/
theorem SegMaps.identity_roundTrip (x : Word) :
    (x ++ x.extractLsb' 16 16 : BitVec (32 + 16)).extractLsb' 16 32 = x := by
  ext i hi
  rw [BitVec.getElem_extractLsb', BitVec.getLsbD_append]
  simp [BitVec.getLsbD_eq_getElem hi]

/-- Four mappings with the ONE property a model may assume of them: `G(F(x)) = x` for every 32-bit `x` (R170, 90_conflicts.md C2).
Nothing else is assumed: not that F or G is the identity, nothing of the 48-bit values in between. -/
structure SegTransform extends SegMaps where
  /-- the round-trip contract of R170 -/
  roundTrip : ∀ x : Word, rexpand (rsubst (subst (expand x))) = x := by
    intro x; simp only [SegMaps.identity_roundTrip]
  deriving Inhabited

/-- The parameters EXPAND, SUBST, RSUBST, REXPAND of R10 and R170. -/
opaque Config.segTransform : SegTransform

/-- The parameter KDF_HASH of R10 and R154: a function of the seed's code points with a 256-bit value, and nothing more. -/
opaque Config.kdfHash : List CodePoint → Block

/-- The parameter PERM_SHUFFLE(s, n) of R10 and R131: a permutation of 0..n-1 that depends on s and n alone; entry k of the table is its value at k.
The type says the two properties a model may assume: it is a function, and it is a bijection. -/
opaque Config.permShuffle : (s n : Nat) → Equiv.Perm (Fin n)

/-- The draw of R251: the value of PT[k] when reset number `r` of a run ends (0 is power-on).
Under no law: no proof can see that it is 0, the identity, or a permutation, nor that two resets draw alike. -/
opaque Config.ptAtReset : (r k : Nat) → Byte

end Sys2Proof
end

