-- ==== Sys2Proof/Machine/State.lean ====
section
/-! DEFINITION. The state of the CORE (spec/10_state.md R20 to R33), the host's accesses it has still to perform (spec/20_memory.md R60), and reset (spec/70_reset_and_hazards.md R250, R251). -/

namespace Sys2Proof.Machine

/-- What the outside world does to the CORE, one event a step (R60, R250).
`width` is the access's width in bytes, `off` a byte offset into the register window.
An access of another width than 4 is refused before its value is looked at (R65), so a write carries one 32-bit value. -/
inductive BusEvent where
  /-- `MemRead(off, width)` -/
  | read (width off : Nat)
  /-- `MemWrite(off, width, v)` -/
  | write (width off : Nat) (v : Word)
  /-- the reset input is asserted and released -/
  | reset
  deriving DecidableEq, Repr

/-- Every piece of state of R30, each in one field, and then the model's own three fields: what the host still sends, what it has read, and how often the CORE was reset. The CORE has no program counter (R20). -/
structure State where
  /-- BLK (R21) -/
  blk : Block
  /-- KEY[0..7] (R22) -/
  key : Vector Word 8
  /-- W (R23) -/
  w : Wide
  /-- PT[0..255] (R24) -/
  pt : Vector Byte 256
  /-- PT_SIZE (R25) -/
  ptSize : BitVec 9
  /-- STATUS.ERR (R26) -/
  err : BitVec 4
  /-- STATUS.EANY (R26) -/
  eany : Bool
  /-- STATUS.LASTOP (R26) -/
  lastop : BitVec 8
  /-- HEXCNT (R27) -/
  hexCnt : BitVec 16
  /-- HEXBAD (R27) -/
  hexBad : Bool
  /-- HEXDIG[0..63] (R27) -/
  hexDig : Vector Nibble 64
  /-- SEED[0..255] (R28) -/
  seed : Vector CodePoint 256
  /-- SEEDLEN (R28) -/
  seedLen : BitVec 9
  /-- SEEDBAD (R28) -/
  seedBad : Bool
  /-- the model's own: the events the host still sends, next first (R60) -/
  bus : List BusEvent
  /-- the model's own: the values the host's reads returned, newest first (R18, R263) -/
  reads : List Word
  /-- the model's own: how many resets have ended since power-on, which numbers the draw of R251 -/
  resets : Nat
  deriving DecidableEq, Repr

/-- The CORE has no behaviour a model treats as a fault or as stuck: "every legal access of every state has a defined result, and every error is a reported result code" (93_implementation_defined.md). So there is no constructor: nobody raises a fault, and no run can end in one. -/
inductive Fault where
  deriving DecidableEq, Repr

/-- Why the model refuses a step. -/
inductive Refusal where
  /-- The instruction has no meaning in the model yet: raised by `exec`'s arms only, and by none of them now.
  Safe: the model stops where the CORE goes on. -/
  | notModelled (mnemonic : String)
  /-- `UnsupportedAccessWidth` of R65, raised by the bus for an access that is not 4 bytes wide.
  Safe: the CORE's bus cannot express such an access. -/
  | unsupportedAccessWidth
  /-- `MisalignedAccess` of R66, raised by the bus for an offset that is no multiple of 4.
  Safe: such an access is outside the CORE's interface (R230). -/
  | misalignedAccess
  /-- Raised by the bus for an offset at or above 0x800, which is "not the CORE's window" (R61, 93_implementation_defined.md).
  Safe: the access reaches no CORE. -/
  | outsideWindow
  deriving DecidableEq, Repr

/-- What a step, a command's meaning or a bus access answers. -/
abbrev Result := Host.Outcome State Fault Refusal

/-- The state when reset number `r` of a run ends (R250, R30): everything 0, and PT drawn by R251.
The events still to come and the values already read are the host's, not the CORE's: reset does not touch them. -/
def State.afterReset (r : Nat) (bus : List BusEvent) (reads : List Word) : State where
  blk := 0
  key := Vector.replicate 8 0
  w := 0
  pt := Vector.ofFn fun k => Config.ptAtReset r k.val
  ptSize := 0
  err := 0
  eany := false
  lastop := 0
  hexCnt := 0
  hexBad := false
  hexDig := Vector.replicate 64 0
  seed := Vector.replicate 256 0
  seedLen := 0
  seedBad := false
  bus := bus
  reads := reads
  resets := r

/-- The machine right after power-on reset, before the host's first access (R250, R253). -/
def State.reset : State := State.afterReset 0 [] []

end Sys2Proof.Machine
end

