-- ==== Sys2Proof/Machine/Flags.lean ====
section
/-! DEFINITION. The status words: STATUS with its result codes (spec/10_state.md R26, spec/60_exceptions.md R220), HEX_STAT (R27) and SEED_STAT (R28). The CORE has no condition codes and no arithmetic flags (R31). -/

namespace Sys2Proof.Machine

/-- The errors a command can end with (R220). -/
inductive ErrorCode where
  /-- `FormatError`: a pushed character is not a hex digit, or none was pushed -/
  | format
  /-- `InvalidBlockSizeError`: the digits are valid but not exactly 64 -/
  | blockSize
  /-- `InvalidKeySegmentSizeError`: the digits are valid but not exactly 8 -/
  | keySegSize
  /-- `LengthMismatchError`: PT_SIZE is not 256 at a block command -/
  | lengthMismatch
  /-- NOT_PERMUTATION: the table is not a bijection of 0..PT_SIZE-1 -/
  | notPermutation
  /-- SEED: the seed port overflowed or took a value that is no Unicode scalar value -/
  | seed
  /-- ILLEGAL_CMD: the CMD word is illegal -/
  | illegalCmd
  deriving DecidableEq, Repr

/-- The code an error has in STATUS.ERR (R26, R220); 0 is OK and 8..15 are never produced. -/
def errorCode (e : ErrorCode) : BitVec 4 :=
  match e with
  | .format => 1#4
  | .blockSize => 2#4
  | .keySegSize => 3#4
  | .lengthMismatch => 4#4
  | .notPermutation => 5#4
  | .seed => 6#4
  | .illegalCmd => 7#4

/-- STATUS: LASTOP in bits 15:8, EANY in bit 4, ERR in bits 3:0, the rest 0 (R26). -/
def statusWord (s : State) : Word :=
  (0#16 ++ s.lastop ++ 0#3 ++ BitVec.ofBool s.eany ++ s.err : BitVec (16 + 8 + 3 + 1 + 4))

/-- HEX_STAT: HEXBAD at bit 16, HEXCNT at bits 15:0 (R27). -/
def hexStatWord (s : State) : Word :=
  (0#15 ++ BitVec.ofBool s.hexBad ++ s.hexCnt : BitVec (15 + 1 + 16))

/-- SEED_STAT: SEEDBAD at bit 16, bits 15:9 zero, SEEDLEN at bits 8:0 (R28). -/
def seedStatWord (s : State) : Word :=
  (0#15 ++ BitVec.ofBool s.seedBad ++ 0#7 ++ s.seedLen : BitVec (15 + 1 + 7 + 9))

end Sys2Proof.Machine
end

