-- ==== Sys2Proof/Machine/Operands.lean ====
section
/-! DEFINITION. Every operand form a command or the window reads or writes: positions, segments, hex digits and bytes of a block (spec/00_scope.md R12 to R14, spec/20_memory.md R69), characters (spec/41_codec.md R111, spec/10_state.md R29), code points (spec/43_key_derivation.md R151), the current table and the current seed. -/

namespace Sys2Proof.Machine

/-- The value of a digit string in base `b`, most significant digit first: "a binary numeral is written most significant digit first" (R13), and so is a hex numeral (R112, D36). -/
def numeral (b : Nat) (digits : List Nat) : Nat := digits.foldl (fun v d => b * v + d) 0

/-- `pos(B, p) = B[255-p]` for p in 0..255: document position 0 is the most significant bit (R13). -/
def pos (B : Block) (p : Nat) : Bool := B.getLsbD (255 - p)

/-- The block whose positions 0, 1, … hold the given bits (R13). -/
def blockOfPositions (bits : List Bool) : Block := BitVec.ofNat 256 (numeral 2 (bits.map Bool.toNat))

/-- `seg(B, i) = B[255-32i : 224-32i]` (R14). -/
def seg (B : Block) (i : Fin 8) : Word := B.extractLsb' (224 - 32 * i.val) 32

/-- `cat8(s0, ..., s7) = s0 ++ s1 ++ ... ++ s7` (R14). -/
def cat8 (s : Vector Word 8) : Block :=
  (s[0] ++ s[1] ++ s[2] ++ s[3] ++ s[4] ++ s[5] ++ s[6] ++ s[7] : BitVec (32 + 32 + 32 + 32 + 32 + 32 + 32 + 32))

/-- `BLK[255-32i : 224-32i] <- v`: segment i is replaced, the other seven stay (R21, R117). -/
def setSeg (B : Block) (i : Fin 8) (v : Word) : Block :=
  cat8 (Vector.ofFn fun j => if j = i then v else seg B j)

/-- Hex digit k of a block, 0 leftmost: `B[255-4k : 252-4k]` (R13). -/
def blockDigit (B : Block) (k : Fin 64) : Nibble := B.extractLsb' (252 - 4 * k.val) 4

/-- Hex digit j of a key segment, leftmost first: `KEY[i][31-4j : 28-4j]` (R22). -/
def wordDigit (v : Word) (j : Fin 8) : Nibble := v.extractLsb' (28 - 4 * j.val) 4

/-- Byte k of the 32-byte value a block is, first byte most significant: `BLK[255-8k : 248-8k]` (R69). -/
def blockByte (B : Block) (k : Fin 32) : Byte := B.extractLsb' (248 - 8 * k.val) 8

/-- Byte j of a key segment as 4 bytes, first byte most significant (R69). -/
def wordByte (v : Word) (j : Fin 4) : Byte := v.extractLsb' (24 - 8 * j.val) 8

/-- `hexchar(d)`: the lowercase ASCII digit of d, as a 32-bit word (R29). -/
def hexchar (d : Nibble) : Word :=
  if d.toNat < 10 then BitVec.ofNat 32 (0x30 + d.toNat) else BitVec.ofNat 32 (0x61 + (d.toNat - 10))

/-- `isHexDigit(v)`: v, all 32 bits of it, is one of the 22 hex digit characters (R111). -/
def isHexDigit (v : Word) : Bool :=
  (0x30 ≤ v.toNat && v.toNat ≤ 0x39) || (0x61 ≤ v.toNat && v.toNat ≤ 0x66) || (0x41 ≤ v.toNat && v.toNat ≤ 0x46)

/-- `digitValue(v)` of a hex digit character (R111). It is read only where `isHexDigit v` holds. -/
def digitValue (v : Word) : Nibble :=
  if v.toNat ≤ 0x39 then BitVec.ofNat 4 (v.toNat - 0x30)
  else if v.toNat ≤ 0x46 then BitVec.ofNat 4 (v.toNat - 0x41 + 10)
  else BitVec.ofNat 4 (v.toNat - 0x61 + 10)

/-- `isScalar(v)`: v, all 32 bits of it, is a Unicode scalar value (R151). -/
def isScalar (v : Word) : Bool := v.toNat ≤ 0xD7FF || (0xE000 ≤ v.toNat && v.toNat ≤ 0x10FFFF)

/-- The current table PT[0..PT_SIZE-1] (R24). -/
def currentTable (s : State) : List Byte := s.pt.toList.take s.ptSize.toNat

/-- The current seed SEED[0..SEEDLEN-1] (R28, R153). -/
def currentSeed (s : State) : List CodePoint := s.seed.toList.take s.seedLen.toNat

end Sys2Proof.Machine
end

