-- ==== Sys2Proof/Machine/Ops.lean ====
section
/-! DEFINITION. The operations the commands share: ending a command (spec/60_exceptions.md R225 to R227), the hex port (spec/41_codec.md R110, R112), the seed port (spec/43_key_derivation.md R150), the permutation table (spec/00_scope.md R16, spec/42_permutation.md R130 to R139), the segment paths of a block (spec/45_pipeline.md R192, R194). -/

namespace Sys2Proof.Machine

/-! ### Ending a command -/

/-- `finish`: the command ends successfully (R225). LASTOP holds the opcode of the word (R96), ERR is 0, EANY is not changed. -/
def finish (i : Instr) (s : State) : Result :=
  .next { s with err := 0, lastop := opcode i }

/-- `raise E`: the command ends with an error (R226, R221). ERR holds the code, EANY is 1, LASTOP holds bits 7:0 of the CMD word, and nothing else changes.
This is the whole of what an error does: the CORE saves no other state, has no vector, no handler and no return from an error (R227). -/
def raiseAt (op : BitVec 8) (e : ErrorCode) (s : State) : State :=
  { s with err := errorCode e, eany := true, lastop := op }

/-- A command's own `raise E`. -/
def raiseError (i : Instr) (e : ErrorCode) (s : State) : Result :=
  .next (raiseAt (opcode i) e s)

/-- An illegal word (R212): ILLEGAL_CMD, with LASTOP holding bits 7:0 of the word. -/
def illegalWord (c : Word) (s : State) : Result :=
  .next (raiseAt (opField c) .illegalCmd s)

/-! ### The hex port -/

/-- `HEXCNT <- 0; HEXBAD <- 0; HEXDIG[0..63] <- 0` (R113 to R115). -/
def clearHexPort (s : State) : State :=
  { s with hexCnt := 0, hexBad := false, hexDig := Vector.replicate 64 0 }

/-- A write to HEX_PUSH appends one character (R110). -/
def hexPush (v : Word) (s : State) : State :=
  { s with
    hexDig := if isHexDigit v ∧ s.hexCnt.toNat < 64 then s.hexDig.setIfInBounds s.hexCnt.toNat (digitValue v) else s.hexDig
    hexBad := s.hexBad || !isHexDigit v
    hexCnt := if s.hexCnt.toNat < 0xFFFF then s.hexCnt + 1 else s.hexCnt }

/-- What HexCheck answers (R112). -/
inductive HexResult where
  | format
  | size
  | ok
  deriving DecidableEq, Repr

/-- `HexCheck(m)` for an expected digit count m (R112): FORMAT is tested before the size. -/
def hexCheck (m : Nat) (s : State) : HexResult :=
  if s.hexBad = true ∨ s.hexCnt = 0 then .format
  else if s.hexCnt.toNat ≠ m then .size
  else .ok

/-- `HexValue(m) = HEXDIG[0] ++ ... ++ HEXDIG[m-1]`, 4m bits, HEXDIG[0] most significant (R112). -/
def hexValue (m : Nat) (s : State) : BitVec (4 * m) :=
  BitVec.ofNat (4 * m) (numeral 16 ((s.hexDig.toList.take m).map BitVec.toNat))

/-! ### The seed port -/

/-- `SEEDLEN <- 0; SEEDBAD <- 0; SEED[0..255] <- 0` (R152). -/
def clearSeedPort (s : State) : State :=
  { s with seedLen := 0, seedBad := false, seed := Vector.replicate 256 0 }

/-- A write to SEED_PUSH appends one code point, or sets SEEDBAD and drops it (R150). -/
def seedPush (v : Word) (s : State) : State :=
  if isScalar v = false ∨ s.seedLen.toNat = 256 then { s with seedBad := true }
  else
    { s with
      seed := s.seed.setIfInBounds s.seedLen.toNat (v.setWidth 21)
      seedLen := s.seedLen + 1 }

/-- SeedSum: the sum of the seed's code points, exact, 0 for the empty seed (R130, D35). -/
def seedSum (s : State) : Nat := ((currentSeed s).map BitVec.toNat).sum

/-! ### The permutation table -/

/-- No two entries are equal. -/
def distinct : List Byte → Bool
  | [] => true
  | x :: xs => xs.all (fun y => x.toNat != y.toNat) && distinct xs

/-- `IsPerm(T, n)` for a table of n entries: every entry is below n and no two are equal (R16). -/
def isPerm (T : List Byte) (n : Nat) : Bool :=
  T.all (fun x => decide (x.toNat < n)) && distinct T

/-- Entry j of `Invert(T, n)`: the index of the entry that holds j (R16, R139). It is read only where `IsPerm(T, n)` holds. -/
def invertEntry (T : List Byte) (j : Nat) : Nat := T.findIdx (fun x => x.toNat == j)

/-- `Invert(T, n)`, n entries: `U[T[k]] = k` (R16, R139). It is used only where `IsPerm(T, n)` holds. -/
def invertTable (T : List Byte) : List Byte :=
  (List.range T.length).map fun j => BitVec.ofNat 8 (invertEntry T j)

/-- `ApplyPerm(B, T)`: output position i is input position T[i] (R16, R135). -/
def applyPerm (B : Block) (T : List Byte) : Block :=
  blockOfPositions (T.map fun t => pos B t.toNat)

/-- `for k in 0..n-1: PT[k] <- T[k]` for a table T of n entries; PT[n..255] is unchanged (R134, R140). -/
def storeTable (T : List Byte) (pt : Vector Byte 256) : Vector Byte 256 :=
  Vector.ofFn fun k => (T[k.val]?).getD pt[k]

/-- The table `PERM_SHUFFLE(s, n)` (R131). -/
def shuffleTable (s n : Nat) : List Byte :=
  List.ofFn fun k => BitVec.ofNat 8 (Config.permShuffle s n k).val

/-- What TableCheck answers (R132). -/
inductive TableResult where
  | length
  | notPerm
  | ok
  deriving DecidableEq, Repr

/-- `TableCheck()` (R132): the length is tested before the bijection. -/
def tableCheck (s : State) : TableResult :=
  if s.ptSize.toNat ≠ 256 then .length
  else if isPerm (currentTable s) 256 then .ok
  else .notPerm

/-- A block command: it reads its table through TableCheck, ends with LENGTH_MISMATCH or NOT_PERMUTATION, or writes to BLK what `f` makes of it and the table (R132, R133, R136, R138, R192, R194). -/
def blockCommand (i : Instr) (f : List Byte → Block → Block) (s : State) : Result :=
  match tableCheck s with
  | .length => raiseError i .lengthMismatch s
  | .notPerm => raiseError i .notPermutation s
  | .ok => finish i { s with blk := f (currentTable s) s.blk }

/-! ### The segment paths of a whole block -/

/-- Steps 3 to 5 of Encrypt: expand, substitute, XOR with key i, in every lane; concatenate (R192, R199). -/
def encLanes (m : SegMaps) (key : Vector Word 8) (B : Block) : Block :=
  cat8 (Vector.ofFn fun i => m.subst (m.expand (seg B i)) ^^^ key[i])

/-- Steps 2 to 4 of Decrypt: XOR with key i, reverse-substitute, reverse-expand, in every lane; concatenate (R194, R199). -/
def decLanes (m : SegMaps) (key : Vector Word 8) (B : Block) : Block :=
  cat8 (Vector.ofFn fun i => m.rexpand (m.rsubst (seg B i ^^^ key[i])))

/-- `Encrypt`: the initial permutation, then the lanes, and no permutation after them (R192, R200). -/
def encrypt (m : SegMaps) (key : Vector Word 8) (T : List Byte) (B : Block) : Block :=
  encLanes m key (applyPerm B T)

/-- `Decrypt`: the lanes, then the inverse permutation, and no permutation before them (R194, R200). -/
def decrypt (m : SegMaps) (key : Vector Word 8) (T : List Byte) (B : Block) : Block :=
  applyPerm (decLanes m key B) (invertTable T)

/-! ### Key derivation -/

/-- `for i in 0..7: KEY[i] <- D[255-32i : 224-32i]` (R155, R157). -/
def splitDigest (D : Block) : Vector Word 8 := Vector.ofFn fun i => seg D i

end Sys2Proof.Machine
end

