-- ==== Sys2Proof/Machine/Codec.lean ====
section
/-! DEFINITION. The binary codec family: LDBLK, LDKEY, CLRHEX, KMIX (spec/41_codec.md). -/

namespace Sys2Proof.Machine

/-- LDBLK (R113): the hex port is consumed whatever the check answers. -/
def execLdblk (s : State) : Result :=
  match hexCheck 64 s with
  | .format => raiseError .ldblk .format (clearHexPort s)
  | .size => raiseError .ldblk .blockSize (clearHexPort s)
  | .ok => finish .ldblk { clearHexPort s with blk := hexValue 64 s }

/-- LDKEY i (R114): the hex port is consumed whatever the check answers. -/
def execLdkey (i : Fin 8) (s : State) : Result :=
  match hexCheck 8 s with
  | .format => raiseError (.ldkey i) .format (clearHexPort s)
  | .size => raiseError (.ldkey i) .keySegSize (clearHexPort s)
  | .ok => finish (.ldkey i) { clearHexPort s with key := s.key.set i (hexValue 8 s) }

/-- CLRHEX (R115). -/
def execClrHex (s : State) : Result := finish .clrHex (clearHexPort s)

/-- KMIX i (R117): segment i is XORed with KEY[i]. -/
def execKmix (i : Fin 8) (s : State) : Result :=
  finish (.kmix i) { s with blk := setSeg s.blk i (seg s.blk i ^^^ s.key[i]) }

end Sys2Proof.Machine
end

