-- ==== Sys2Proof/Machine/Control.lean ====
section
/-! DEFINITION. The control family: NOP, CLRERR (spec/46_control.md). Illegal words are `illegalWord` of Machine/Ops.lean. -/

namespace Sys2Proof.Machine

/-- NOP (R210). -/
def execNop (s : State) : Result := finish .nop s

/-- CLRERR (R211): the only command that clears EANY. -/
def execClrErr (s : State) : Result := finish .clrErr { s with eany := false }

end Sys2Proof.Machine
end

