-- ==== Sys2Proof/Machine/KeyDerivation.lean ====
section
/-! DEFINITION. The key derivation family: DERIVEKEY, CLRSEED (spec/43_key_derivation.md). -/

namespace Sys2Proof.Machine

/-- DERIVEKEY (R157): the seed port is not consumed. -/
def execDeriveKey (s : State) : Result :=
  if s.seedBad then raiseError .deriveKey .seed s
  else finish .deriveKey { s with key := splitDigest (Config.kdfHash (currentSeed s)) }

/-- CLRSEED (R152). -/
def execClrSeed (s : State) : Result := finish .clrSeed (clearSeedPort s)

end Sys2Proof.Machine
end

