-- ==== Sys2Proof/Machine/Permutation.lean ====
section
/-! DEFINITION. The permutation engine family: DERIVEPERM, PERM, INVPERM, INVERT (spec/42_permutation.md). -/

namespace Sys2Proof.Machine

/-- DERIVEPERM n (R134). A size above 256 has no legal word; that it ends as R97 and R212 say of such a word is the model's choice (DESIGN CHOICE, log 7). -/
def execDerivePerm (n : BitVec 9) (s : State) : Result :=
  if n.toNat > 256 then raiseError (.derivePerm n) .illegalCmd s
  else if s.seedBad then raiseError (.derivePerm n) .seed s
  else finish (.derivePerm n) { s with pt := storeTable (shuffleTable (seedSum s) n.toNat) s.pt, ptSize := n }

/-- PERM (R136). -/
def execPerm (s : State) : Result := blockCommand .perm (fun T B => applyPerm B T) s

/-- INVPERM (R138): the inverse is computed internally, PT is not changed. -/
def execInvPerm (s : State) : Result := blockCommand .invPerm (fun T B => applyPerm B (invertTable T)) s

/-- INVERT (R140): works for every PT_SIZE and never raises LENGTH_MISMATCH. -/
def execInvert (s : State) : Result :=
  if isPerm (currentTable s) s.ptSize.toNat then
    finish .invert { s with pt := storeTable (invertTable (currentTable s)) s.pt }
  else raiseError .invert .notPermutation s

end Sys2Proof.Machine
end

