-- ==== Sys2Proof/Machine/Pipeline.lean ====
section
/-! DEFINITION. The cipher pipeline family: ENC, DEC (spec/45_pipeline.md). -/

namespace Sys2Proof.Machine

/-- ENC (R192): writes BLK and STATUS and nothing else (R197). -/
def execEnc (s : State) : Result :=
  blockCommand .enc (encrypt Config.segTransform.toSegMaps s.key) s

/-- DEC (R194): writes BLK and STATUS and nothing else (R197). -/
def execDec (s : State) : Result :=
  blockCommand .dec (decrypt Config.segTransform.toSegMaps s.key) s

end Sys2Proof.Machine
end

