-- ==== Sys2Proof/Machine/SegmentTransform.lean ====
section
/-! DEFINITION. The segment transform family: EXPAND, SUBST, RSUBST, REXPAND (spec/44_segment_transform.md). -/

namespace Sys2Proof.Machine

/-- EXPAND i (R173). -/
def execExpand (i : Fin 8) (s : State) : Result :=
  finish (.expand i) { s with w := Config.segTransform.expand (seg s.blk i) }

/-- SUBST i (R174). -/
def execSubst (i : Fin 8) (s : State) : Result :=
  finish (.subst i) { s with blk := setSeg s.blk i (Config.segTransform.subst s.w) }

/-- RSUBST i (R175). -/
def execRsubst (i : Fin 8) (s : State) : Result :=
  finish (.rsubst i) { s with w := Config.segTransform.rsubst (seg s.blk i) }

/-- REXPAND i (R176). -/
def execRexpand (i : Fin 8) (s : State) : Result :=
  finish (.rexpand i) { s with blk := setSeg s.blk i (Config.segTransform.rexpand s.w) }

end Sys2Proof.Machine
end

