-- ==== Sys2Proof/Machine/Dispatch.lean ====
section
/-! DEFINITION. One arm per command: what running it does (spec/30_encoding.md R95, R96). -/

namespace Sys2Proof.Machine

-- The command a legal CMD word selects, run to completion.
def exec (i : Instr) (s : State) : Host.Outcome State Fault Refusal :=
  match i with
  | .nop => Sys2Proof.Machine.execNop s
  | .ldblk => Sys2Proof.Machine.execLdblk s
  | .ldkey k => Sys2Proof.Machine.execLdkey k s
  | .enc => Sys2Proof.Machine.execEnc s
  | .dec => Sys2Proof.Machine.execDec s
  | .deriveKey => Sys2Proof.Machine.execDeriveKey s
  | .derivePerm n => Sys2Proof.Machine.execDerivePerm n s
  | .perm => Sys2Proof.Machine.execPerm s
  | .invPerm => Sys2Proof.Machine.execInvPerm s
  | .invert => Sys2Proof.Machine.execInvert s
  | .kmix k => Sys2Proof.Machine.execKmix k s
  | .expand k => Sys2Proof.Machine.execExpand k s
  | .subst k => Sys2Proof.Machine.execSubst k s
  | .rsubst k => Sys2Proof.Machine.execRsubst k s
  | .rexpand k => Sys2Proof.Machine.execRexpand k s
  | .clrHex => Sys2Proof.Machine.execClrHex s
  | .clrSeed => Sys2Proof.Machine.execClrSeed s
  | .clrErr => Sys2Proof.Machine.execClrErr s

end Sys2Proof.Machine
end

