-- ==== Sys2Proof/Machine/Window.lean ====
section
/-! DEFINITION. The register window: its map (spec/20_memory.md R61 to R63), what reading and writing each register does (R62 to R64, R68; spec/10_state.md R21 to R29). A write to CMD is not here: Machine/Bus.lean runs its command. -/

namespace Sys2Proof.Machine

/-- The names of R62's map, and `reserved` for every other word offset of the window (R63). -/
inductive Reg where
  | cmd
  | status
  | hexPush
  | hexStat
  | seedPush
  | seedStat
  | ptSize
  | blkW (i : Fin 8)
  | key (i : Fin 8)
  | wLo
  | wHi
  | blkHex (k : Fin 64)
  | keyHex (k : Fin 64)
  | pt (k : Fin 256)
  | reserved
  deriving DecidableEq, Repr

/-- The register at a word offset below 0x800 (R62, R63). `off` is taken to be a multiple of 4: the bus has refused any other. -/
def regAt (off : Nat) : Reg :=
  if off = 0x000 then .cmd
  else if off = 0x004 then .status
  else if off = 0x008 then .hexPush
  else if off = 0x00C then .hexStat
  else if off = 0x010 then .seedPush
  else if off = 0x014 then .seedStat
  else if off = 0x018 then .ptSize
  else if off < 0x040 then .reserved
  else if off < 0x060 then .blkW (Fin.ofNat 8 ((off - 0x040) / 4))
  else if off < 0x080 then .key (Fin.ofNat 8 ((off - 0x060) / 4))
  else if off = 0x080 then .wLo
  else if off = 0x084 then .wHi
  else if off < 0x100 then .reserved
  else if off < 0x200 then .blkHex (Fin.ofNat 64 ((off - 0x100) / 4))
  else if off < 0x300 then .keyHex (Fin.ofNat 64 ((off - 0x200) / 4))
  else if off < 0x400 then .reserved
  else .pt (Fin.ofNat 256 ((off - 0x400) / 4))

/-- The offset of each register (R62); a reserved word has none of its own. -/
def regOffset (r : Reg) : Option Nat :=
  match r with
  | .cmd => some 0x000
  | .status => some 0x004
  | .hexPush => some 0x008
  | .hexStat => some 0x00C
  | .seedPush => some 0x010
  | .seedStat => some 0x014
  | .ptSize => some 0x018
  | .blkW i => some (0x040 + 4 * i.val)
  | .key i => some (0x060 + 4 * i.val)
  | .wLo => some 0x080
  | .wHi => some 0x084
  | .blkHex k => some (0x100 + 4 * k.val)
  | .keyHex k => some (0x200 + 4 * k.val)
  | .pt k => some (0x400 + 4 * k.val)
  | .reserved => none

/-- What a read of a register returns (R62 to R64). Reads have no side effects (R68). -/
def readReg (r : Reg) (s : State) : Word :=
  match r with
  | .cmd => 0
  | .status => statusWord s
  | .hexPush => 0
  | .hexStat => hexStatWord s
  | .seedPush => 0
  | .seedStat => seedStatWord s
  | .ptSize => s.ptSize.setWidth 32
  | .blkW i => seg s.blk i
  | .key i => s.key[i]
  | .wLo => s.w.extractLsb' 0 32
  | .wHi => (s.w.extractLsb' 32 16).setWidth 32
  | .blkHex k => hexchar (blockDigit s.blk k)
  | .keyHex k => hexchar (wordDigit s.key[k.val / 8] (Fin.ofNat 8 k.val))
  | .pt k => s.pt[k].setWidth 32
  | .reserved => 0

/-- What a write to a register other than CMD does (R62 to R64). A write to CMD runs a command instead (R90). -/
def writeReg (r : Reg) (v : Word) (s : State) : State :=
  match r with
  | .cmd => s
  | .status => s
  | .hexPush => hexPush v s
  | .hexStat => s
  | .seedPush => seedPush v s
  | .seedStat => s
  | .ptSize => if v.toNat ≤ 256 then { s with ptSize := v.setWidth 9 } else s
  | .blkW i => { s with blk := setSeg s.blk i v }
  | .key i => { s with key := s.key.set i v }
  | .wLo => { s with w := (s.w.extractLsb' 32 16 ++ v : BitVec (16 + 32)) }
  | .wHi => { s with w := (v.extractLsb' 0 16 ++ s.w.extractLsb' 0 32 : BitVec (16 + 32)) }
  | .blkHex _ => s
  | .keyHex _ => s
  | .pt k => { s with pt := s.pt.set k (v.extractLsb' 0 8) }
  | .reserved => s

end Sys2Proof.Machine
end

