-- ==== Sys2Proof/Machine/Bus.lean ====
section
/-! DEFINITION. One event on the CORE's pins: a host read, a host write (which runs a whole command when it goes to CMD), or reset (spec/20_memory.md R60 to R70, spec/30_encoding.md R90, R96, spec/70_reset_and_hazards.md R250). -/

namespace Sys2Proof.Machine

/-- A word written to CMD: decoded, then run at once and to completion (R70, R90, R96). -/
def runCommand (c : Word) (s : State) : Result :=
  match decode c with
  | .ok i => exec i s
  | .error _ => illegalWord c s

/-- Why an access is refused, if it is (R61, R65, R66). The spec fixes no order among the three: the width is tested first, then the alignment, then the window (DESIGN CHOICE, log 4). -/
def accessRefusal (width off : Nat) : Option Refusal :=
  if width ≠ 4 then some .unsupportedAccessWidth
  else if off % 4 ≠ 0 then some .misalignedAccess
  else if off ≥ 0x800 then some .outsideWindow
  else none

/-- `MemRead(off, width)`: the value is the host's, the CORE's state does not change (R60, R68). -/
def busRead (width off : Nat) (s : State) : Result :=
  match accessRefusal width off with
  | some r => .refused r
  | none => .next { s with reads := readReg (regAt off) s :: s.reads }

/-- `MemWrite(off, width, v)` (R60); a write to CMD runs the command (R90). -/
def busWrite (width off : Nat) (v : Word) (s : State) : Result :=
  match accessRefusal width off with
  | some r => .refused r
  | none => if off = 0x000 then runCommand v s else .next (writeReg (regAt off) v s)

/-- One event, performed on the state that no longer holds it. -/
def perform (e : BusEvent) (s : State) : Result :=
  match e with
  | .read width off => busRead width off s
  | .write width off v => busWrite width off v s
  | .reset => .next (State.afterReset (s.resets + 1) s.bus s.reads)

/-- Events performed one after the other, each to completion, in the order the CORE receives them (R72). -/
def performAll : List BusEvent → State → Result
  | [], s => .next s
  | e :: es, s =>
    match perform e s with
    | .next t => performAll es t
    | .fault f => .fault f
    | .refused r => .refused r

/-- What the host does next, performed. With nothing from the host the CORE waits and holds its state unchanged (R20, R238). -/
def stepBus (s : State) : Result :=
  match s.bus with
  | [] => .next s
  | e :: rest => perform e { s with bus := rest }

/-- The values the host's reads returned, in the order of the reads (R18, R263). -/
def observation (s : State) : List Word := s.reads.reverse

end Sys2Proof.Machine
end

