-- ==== Sys2Proof/Machine/Step.lean ====
section
/-! DEFINITION. One step is one host access, and for a write to CMD the whole command (spec/20_memory.md R60, R70). -/

namespace Sys2Proof.Machine

/-- One step of the CORE (R60). -/
def step (s : State) : Host.Outcome State Fault Refusal := stepBus s

/-- The state in which the host's next access writes this command word to CMD: the CORE fetches nothing, a command arrives on the bus (R20, R90). The accesses that were still to come follow it. -/
def State.withFetchWord (s : State) (nbits w : Nat) : State :=
  { s with bus := .write 4 0x000 (tableWord nbits w) :: s.bus }

end Sys2Proof.Machine
end

