-- ==== Sys2Proof/Machine/Assembler.lean ====
section
/-! DEFINITION. The spec's assembler (spec/30_encoding.md R98 to R100): command lines, access lines and pseudo-instructions, each as the bus accesses it stands for. "The pseudo-instructions exist only in the assembler; the CORE sees the expansion." -/

namespace Sys2Proof.Machine

/-- A command assembles to `MemWrite(0x000, 4, word)` (R98). -/
def assemble (i : Instr) : BusEvent := .write 4 0x000 (encode i)

/-- Where an access line points: a register by its name, or a numeric offset (R99). -/
inductive Target where
  | reg (r : Reg)
  | offset (n : Nat)
  deriving DecidableEq, Repr

/-- `off(NAME)` (R99). A reserved word has no name: it is reached by its numeric offset only. -/
def targetOffset (t : Target) : Option Nat :=
  match t with
  | .reg r => regOffset r
  | .offset n => some n

/-- A line of assembler (R98 to R100). -/
inductive Line where
  /-- a command by its mnemonic -/
  | command (i : Instr)
  /-- `wr NAME, v` -/
  | wr (t : Target) (v : Word)
  /-- `rd NAME`, and `rd NAME == v`, whose comparison is the host's and has no effect on the CORE -/
  | rd (t : Target)
  /-- `hex "s"` -/
  | hex (text : List Char)
  /-- `ldblk "s"` -/
  | ldblk (text : List Char)
  /-- `ldkey i, "s"` -/
  | ldkey (i : Fin 8) (text : List Char)
  /-- `seed "s"` -/
  | seed (text : List Char)
  /-- `wrblk w0, ..., w7` -/
  | wrblk (ws : Vector Word 8)
  /-- `wrkey k0, ..., k7` -/
  | wrkey (ks : Vector Word 8)
  /-- `wrpt t0, ..., t(m-1)` -/
  | wrpt (ts : List Byte)
  /-- `chk e`: read STATUS; the host compares bits 3:0 with e -/
  | chk (e : BitVec 4)
  deriving DecidableEq, Repr

/-- The accesses of `wr NAME, v` (R99). -/
def wrLine (t : Target) (v : Word) : List BusEvent :=
  match targetOffset t with
  | some off => [.write 4 off v]
  | none => []

/-- The accesses of `rd NAME` (R99). -/
def rdLine (t : Target) : List BusEvent :=
  match targetOffset t with
  | some off => [.read 4 off]
  | none => []

/-- A character's code, as the word that is pushed (R100, R110, R150): for `seed` the code point R100 names, for `hex` `ascii(c)`. R100 gives no `ascii(c)` for a character outside ASCII; that its Unicode code point is pushed there is the model's choice (DESIGN CHOICE, log 13). -/
def charWord (c : Char) : Word := BitVec.ofNat 32 c.toNat

/-- `hex "s"`: CLRHEX, then one push for each character in order (R100; characters outside ASCII: log 13). -/
def hexLine (text : List Char) : List BusEvent :=
  assemble .clrHex :: text.map fun c => .write 4 0x008 (charWord c)

/-- `seed "s"`: CLRSEED, then one push for each code point in order (R100). -/
def seedLine (text : List Char) : List BusEvent :=
  assemble .clrSeed :: text.map fun c => .write 4 0x010 (charWord c)

/-- The bus accesses a line stands for (R98 to R100). -/
def expandLine (l : Line) : List BusEvent :=
  match l with
  | .command i => [assemble i]
  | .wr t v => wrLine t v
  | .rd t => rdLine t
  | .hex text => hexLine text
  | .ldblk text => hexLine text ++ [assemble .ldblk]
  | .ldkey i text => hexLine text ++ [assemble (.ldkey i)]
  | .seed text => seedLine text
  | .wrblk ws => (List.finRange 8).map fun j => .write 4 (0x040 + 4 * j.val) ws[j]
  | .wrkey ks => (List.finRange 8).map fun j => .write 4 (0x060 + 4 * j.val) ks[j]
  | .wrpt ts => (ts.mapIdx fun k t => .write 4 (0x400 + 4 * k) (t.setWidth 32)) ++ [.write 4 0x018 (BitVec.ofNat 32 ts.length)]
  | .chk _ => rdLine (.reg .status)

/-- A digit of a decimal or hex number, below the base. -/
def digitOf (base : Nat) (c : Char) : Option Nat :=
  let n := c.toNat
  let d := if 0x30 ≤ n ∧ n ≤ 0x39 then some (n - 0x30)
    else if 0x61 ≤ n ∧ n ≤ 0x66 then some (n - 0x61 + 10)
    else if 0x41 ≤ n ∧ n ≤ 0x46 then some (n - 0x41 + 10)
    else none
  d.filter (· < base)

/-- A number "in decimal or `0x` hex" (R98). -/
def parseNumber (text : List Char) : Option Nat :=
  match text with
  | [] => none
  | '0' :: 'x' :: [] => none
  | '0' :: 'x' :: ds => (ds.mapM (digitOf 16)).map (numeral 16)
  | ds => (ds.mapM (digitOf 10)).map (numeral 10)

/-- The command of an opcode written with no operand: the format N commands (R91, R98). -/
def parsePlain (op : BitVec 8) : Option Instr :=
  if formatOf op = some .N then commandOf op 0 0 else none

/-- The command of an opcode written with one number: an index 0..7 or a size 0..256 (R92, R93, R98). -/
def parseOperand (op : BitVec 8) (n : Nat) : Option Instr :=
  match formatOf op with
  | some .S => if n < 8 then commandOf op (Fin.ofNat 8 n) 0 else none
  | some .P => if n ≤ 256 then commandOf op 0 (BitVec.ofNat 9 n) else none
  | some .N => none
  | none => none

/-- The words of a line, split at spaces. -/
def splitWords (text : List Char) : List (List Char) :=
  (text.splitBy fun a b => a != ' ' && b != ' ').filter fun w => w.all (· != ' ')

/-- The opcode a mnemonic names, "case-insensitive" (R98). -/
def opcodeOfName (name : List Char) : Option (BitVec 8) :=
  (opcodeTable.find? fun r => r.mnemonic.toList.map Char.toLower == name.map Char.toLower).map
    fun r => opField r.value

/-- A command line: a mnemonic, followed by `i` for format S or `n` for format P (R98). -/
def parseCommand (text : List Char) : Option Instr :=
  match splitWords text with
  | [name] => (opcodeOfName name).bind parsePlain
  | [name, operand] => (opcodeOfName name).bind fun op => (parseNumber operand).bind (parseOperand op)
  | _ => none

end Sys2Proof.Machine
end

