-- ==== Sys2Proof/Safety.lean ====
section
/-! DEFINITION. What counts as a safe run, and the invariant every step keeps (spec/10_state.md R25 to R28, spec/20_memory.md R61, R65, R66, spec/60_exceptions.md R220). -/

namespace Sys2Proof.Machine

/-- An access the CORE's interface can express: 4 bytes wide, aligned, inside the window (R61, R65, R66). Reset always is. -/
def legalEvent (e : BusEvent) : Bool :=
  match e with
  | .read width off => width == 4 && off % 4 == 0 && decide (off < 0x800)
  | .write width off _ => width == 4 && off % 4 == 0 && decide (off < 0x800)
  | .reset => true

/-- Every access the host still sends is legal: no step of such a run is refused. -/
def safeBus (s : State) : Bool := s.bus.all legalEvent

/-- The column "raised by" of R220: may STATUS hold this code in ERR beside this opcode in LASTOP?
OK stands beside the legal opcodes 0x00..0x11, ILLEGAL_CMD beside any byte, and codes 8..15 beside none. -/
def mayRaise (err : BitVec 4) (lastop : BitVec 8) : Bool :=
  match err.toNat with
  | 0 => lastop.toNat ≤ 0x11
  | 1 => [0x01, 0x02].contains lastop.toNat
  | 2 => lastop.toNat == 0x01
  | 3 => lastop.toNat == 0x02
  | 4 => [0x03, 0x04, 0x07, 0x08].contains lastop.toNat
  | 5 => [0x03, 0x04, 0x07, 0x08, 0x09].contains lastop.toNat
  | 6 => [0x05, 0x06].contains lastop.toNat
  | 7 => true
  | _ => false

/-- What holds of the CORE's registers in every state a run reaches. -/
structure State.Inv (s : State) : Prop where
  /-- PT_SIZE holds 0..256 (R25) -/
  ptSize_le : s.ptSize.toNat ≤ 256
  /-- SEEDLEN holds 0..256 (R28) -/
  seedLen_le : s.seedLen.toNat ≤ 256
  /-- ERR and LASTOP go together as R220 says; in particular codes 8..15 are never produced -/
  err_lastop : mayRaise s.err s.lastop = true
  /-- a command that ended with an error has set EANY (R226) -/
  err_eany : s.err ≠ 0 → s.eany = true
  /-- HEXBAD is set only by a push, which also counts (R110) -/
  hexBad_counted : s.hexBad = true → s.hexCnt ≠ 0
  /-- the hex digits not pushed yet are 0 (R110, R113) -/
  hexDig_clear : ∀ (k : Nat) (_ : k < 64), s.hexCnt.toNat ≤ k → s.hexDig[k] = 0
  /-- the seed's entries not pushed yet are 0 (R150, R152) -/
  seed_clear : ∀ (k : Nat) (_ : k < 256), s.seedLen.toNat ≤ k → s.seed[k] = 0
  /-- every code point held is a Unicode scalar value (R150, R151) -/
  seed_scalar : ∀ (k : Nat) (_ : k < 256), isScalar (s.seed[k].setWidth 32) = true

end Sys2Proof.Machine
end

