-- ==== Sys2Proof/Certificates/Slice0/Obligations.lean ====
section
/-! DEFINITION. The statements for the provers, each a numbered rule of spec/ or something the spec's sections entail. -/

open Sys2Proof Sys2Proof.Machine

namespace Sys2Proof.Statements

/-- Entry k of PT as a number, for k in 0..255 (R24). -/
def PT (s : State) (k : Nat) : Nat := (s.pt[k]?.getD 0).toNat

/-- `IsPerm(T, n)` as R16 writes it: every T[k] with k < n is below n and no two of T[0..n-1] are equal. -/
def IsPerm (T : Nat → Nat) (n : Nat) : Prop :=
  (∀ k, k < n → T k < n) ∧ ∀ j k, j < n → k < n → T j = T k → j = k

/-- F of R170, of the machine's own parameters. -/
def F (x : Word) : Word := Config.segTransform.subst (Config.segTransform.expand x)

/-- G of R170, of the machine's own parameters. -/
def G (y : Word) : Word := Config.segTransform.rexpand (Config.segTransform.rsubst y)

/-- The words R97 calls illegal, from the word's bits alone. -/
def IllegalWord (c : Word) : Prop :=
  let op := (c.extractLsb' 0 8).toNat
  0x12 ≤ op ∨
  (op ∈ [0x00, 0x01, 0x03, 0x04, 0x05, 0x07, 0x08, 0x09, 0x0F, 0x10, 0x11] ∧ c.extractLsb' 8 24 ≠ 0) ∨
  (op ∈ [0x02, 0x0A, 0x0B, 0x0C, 0x0D, 0x0E] ∧ c.extractLsb' 11 21 ≠ 0) ∨
  (op = 0x06 ∧ (c.extractLsb' 17 15 ≠ 0 ∨ 256 < (c.extractLsb' 8 9).toNat))

/-- The word offsets R63 calls reserved. -/
def ReservedOffset (off : Nat) : Prop :=
  off % 4 = 0 ∧ ((0x01C ≤ off ∧ off ≤ 0x03C) ∨ (0x088 ≤ off ∧ off ≤ 0x0FC) ∨ (0x300 ≤ off ∧ off ≤ 0x3FC))

/-- The offsets of the read-only registers of R64. -/
def ReadOnlyOffset (off : Nat) : Prop :=
  off = 0x004 ∨ off = 0x00C ∨ off = 0x014 ∨ (off % 4 = 0 ∧ 0x100 ≤ off ∧ off < 0x300)

/-- An event that can change the seed port: a push to it, a CLRSEED word, reset. -/
def TouchesSeed (e : BusEvent) : Prop :=
  (∃ width v, e = .write width 0x010 v) ∨ (∃ width, e = .write width 0x000 0x00000010#32) ∨ e = .reset

/-- A command written to CMD, as the assembler writes it. -/
def commands (is : List Instr) : List BusEvent := is.map assemble

/-- The 24 commands that run the forward path of ENC over segments 0 to 7 in order (R177); irreducible, so that no tactic runs them by accident: unfold it by name. -/
@[irreducible] def forwardPaths : List Instr := (List.finRange 8).flatMap fun i => [.expand i, .subst i, .kmix i]

/-- The 24 commands that run the inverse path of DEC over segments 0 to 7 in order (R177); irreducible as `forwardPaths` is. -/
@[irreducible] def inversePaths : List Instr := (List.finRange 8).flatMap fun i => [.kmix i, .rsubst i, .rexpand i]

end Sys2Proof.Statements

open Sys2Proof.Statements

/-! ### Words and steps -/

/-- The encoder's word of every command with a legal word decodes to that command, for every index 0..7 and every size 0..256 (R91 to R93, R95, R98). -/
def Obligations.DecodeOfEncode : Prop :=
  ∀ i : Instr, i.wf = true → decode (encode i) = .ok i

/-- The decoder takes a word exactly when R97 does not call it illegal, and then the word is the one word of the command it reads: no bit of a legal word is dropped (R96, R97). -/
def Obligations.LegalWordsHaveOneCommand : Prop :=
  ∀ c : Word, ((∃ i, decode c = .ok i) ↔ ¬ IllegalWord c) ∧
    ∀ i, decode c = .ok i → encode i = c ∧ i.wf = true

/-- The decoder agrees with spec/opcode_table.json: a word decodes to a command of a row exactly when it matches the row's mask and value, and for DERIVEPERM meets the row's constraint SIZE ≤ 256. -/
def Obligations.DecodeAgreesWithOpcodeTable : Prop :=
  ∀ r, r ∈ opcodeTable → ∀ c : Word,
    (∃ i, decode c = .ok i ∧ mnemonic i = r.mnemonic) ↔
      (c &&& r.mask = r.value ∧ (r.mnemonic = "DERIVEPERM" → (c.extractLsb' 8 9).toNat ≤ 256))

/-- One word of each command, written out from the bit patterns of spec/opcode_table.json and the examples of 95_test_vectors.md, decodes to it. -/
def Obligations.WrittenOutWordsDecode : Prop :=
  decode 0b00000000000000000000000000000000#32 = .ok .nop ∧
  decode 0b00000000000000000000000000000001#32 = .ok .ldblk ∧
  decode 0b00000000000000000000001100000010#32 = .ok (.ldkey 3) ∧
  decode 0b00000000000000000000000000000011#32 = .ok .enc ∧
  decode 0b00000000000000000000000000000100#32 = .ok .dec ∧
  decode 0b00000000000000000000000000000101#32 = .ok .deriveKey ∧
  decode 0b00000000000000010000000000000110#32 = .ok (.derivePerm 256) ∧
  decode 0b00000000000000000000000000000111#32 = .ok .perm ∧
  decode 0b00000000000000000000000000001000#32 = .ok .invPerm ∧
  decode 0b00000000000000000000000000001001#32 = .ok .invert ∧
  decode 0b00000000000000000000010100001010#32 = .ok (.kmix 5) ∧
  decode 0b00000000000000000000000000001011#32 = .ok (.expand 0) ∧
  decode 0b00000000000000000000000000001100#32 = .ok (.subst 0) ∧
  decode 0b00000000000000000000011100001101#32 = .ok (.rsubst 7) ∧
  decode 0b00000000000000000000011100001110#32 = .ok (.rexpand 7) ∧
  decode 0b00000000000000000000000000001111#32 = .ok .clrHex ∧
  decode 0b00000000000000000000000000010000#32 = .ok .clrSeed ∧
  decode 0b00000000000000000000000000010001#32 = .ok .clrErr

/-- When the next access writes to CMD a word that decodes to a command, the step is the command's `exec` on the state without that access: a step adds nothing around it (R60, R70, R90). -/
def Obligations.StepRunsDecodedCommand : Prop :=
  ∀ (s : State) (c : Word) (i : Instr) (rest : List BusEvent),
    s.bus = .write 4 0x000 c :: rest → decode c = .ok i → step s = exec i { s with bus := rest }

/-- Every word R97 calls illegal ends with ILLEGAL_CMD: ERR = 7, EANY = 1, LASTOP = bits 7:0 of the word, and no other register changes, the hex port included (R97, R212). -/
def Obligations.IllegalWordChangesOnlyStatus : Prop :=
  ∀ (s : State) (c : Word) (rest : List BusEvent), s.bus = .write 4 0x000 c :: rest → IllegalWord c →
    step s = .next { s with bus := rest, err := 7, eany := true, lastop := c.extractLsb' 0 8 }

/-- A run of as many steps as there are events is the events performed one after the other in the order received, and ends with none left (R60, R72). -/
def Obligations.RunPerformsEventsInOrder : Prop :=
  ∀ (es : List BusEvent) (s : State),
    core.run es.length { s with bus := es } = performAll es { s with bus := [] }

/-- Every legal access, and reset, completes in one step that takes just that event from the host's list, in every state (R60, R70); so a run whose accesses are all legal is never refused. With nothing from the host the state is held unchanged (R238; that this waiting is a step is the model's choice, log 3). -/
def Obligations.LegalEventCompletes : Prop :=
  ∀ s : State, (s.bus = [] → step s = .next s) ∧
    (∀ (e : BusEvent) (rest : List BusEvent), s.bus = e :: rest → legalEvent e = true →
      ∃ t, step s = .next t ∧ t.bus = rest) ∧
    (safeBus s = true → ∃ t, step s = .next t ∧ safeBus t = true)

/-- An access of another width, a misaligned one, one outside the window: each alone is refused by its own name; several together are refused too (R61, R65, R66). Which name an access with two of these faults gets is the model's choice (log 4) and is not stated. -/
def Obligations.IllegalAccessIsRefused : Prop :=
  ∀ (s : State) (width off : Nat) (v : Word) (rest : List BusEvent),
    (s.bus = .read width off :: rest ∨ s.bus = .write width off v :: rest) →
    (width ≠ 4 → off % 4 = 0 → off < 0x800 → step s = .refused .unsupportedAccessWidth) ∧
    (width = 4 → off % 4 ≠ 0 → off < 0x800 → step s = .refused .misalignedAccess) ∧
    (width = 4 → off % 4 = 0 → 0x800 ≤ off → step s = .refused .outsideWindow) ∧
    (width ≠ 4 ∨ off % 4 ≠ 0 ∨ 0x800 ≤ off → ∃ r, step s = .refused r)

/-! ### The window -/

/-- Reading a data register: BLK_W, KEY, W_LO, W_HI, PT, PT_SIZE, at their offsets (R21 to R25, R62). The read changes nothing in the CORE (R68). -/
def Obligations.DataRegisterReads : Prop :=
  ∀ (s : State) (off : Nat) (rest : List BusEvent), s.bus = .read 4 off :: rest →
    (∀ i : Fin 8, off = 0x040 + 4 * i.val →
      step s = .next { s with bus := rest, reads := s.blk.extractLsb' (224 - 32 * i.val) 32 :: s.reads }) ∧
    (∀ i : Fin 8, off = 0x060 + 4 * i.val → step s = .next { s with bus := rest, reads := s.key[i] :: s.reads }) ∧
    (off = 0x080 → step s = .next { s with bus := rest, reads := s.w.extractLsb' 0 32 :: s.reads }) ∧
    (off = 0x084 → step s = .next { s with bus := rest, reads := (s.w.extractLsb' 32 16).setWidth 32 :: s.reads }) ∧
    (off = 0x018 → step s = .next { s with bus := rest, reads := s.ptSize.setWidth 32 :: s.reads }) ∧
    (∀ k : Fin 256, off = 0x400 + 4 * k.val →
      step s = .next { s with bus := rest, reads := s.pt[k].setWidth 32 :: s.reads })

/-- Reading STATUS, HEX_STAT and SEED_STAT, field by field (R26 to R28); the read changes nothing in the CORE. -/
def Obligations.StatusRegisterReads : Prop :=
  ∀ (s : State) (off : Nat) (rest : List BusEvent), s.bus = .read 4 off :: rest →
    (off = 0x004 → ∃ v : Word, step s = .next { s with bus := rest, reads := v :: s.reads } ∧
      v.extractLsb' 0 4 = s.err ∧ v.getLsbD 4 = s.eany ∧ v.extractLsb' 5 3 = 0 ∧
      v.extractLsb' 8 8 = s.lastop ∧ v.extractLsb' 16 16 = 0) ∧
    (off = 0x00C → ∃ v : Word, step s = .next { s with bus := rest, reads := v :: s.reads } ∧
      v.extractLsb' 0 16 = s.hexCnt ∧ v.getLsbD 16 = s.hexBad ∧ v.extractLsb' 17 15 = 0) ∧
    (off = 0x014 → ∃ v : Word, step s = .next { s with bus := rest, reads := v :: s.reads } ∧
      v.extractLsb' 0 9 = s.seedLen ∧ v.extractLsb' 9 7 = 0 ∧ v.getLsbD 16 = s.seedBad ∧ v.extractLsb' 17 15 = 0)

/-- BLKHEX[k] and KEYHEX[8i+j] read as the lowercase ASCII digit of the block's digit k and the key segment's digit j (R29, R119); the read changes nothing in the CORE. -/
def Obligations.HexViewReads : Prop :=
  ∀ (s : State) (off : Nat) (rest : List BusEvent), s.bus = .read 4 off :: rest →
    (∀ k : Fin 64, off = 0x100 + 4 * k.val → ∃ v : Word,
      step s = .next { s with bus := rest, reads := v :: s.reads } ∧
      ∃ d : Nat, d = (s.blk.extractLsb' (252 - 4 * k.val) 4).toNat ∧ v.toNat = if d ≤ 9 then 0x30 + d else 0x57 + d) ∧
    (∀ i j : Fin 8, off = 0x200 + 4 * (8 * i.val + j.val) → ∃ v : Word,
      step s = .next { s with bus := rest, reads := v :: s.reads } ∧
      ∃ d : Nat, d = (s.key[i].extractLsb' (28 - 4 * j.val) 4).toNat ∧ v.toNat = if d ≤ 9 then 0x30 + d else 0x57 + d)

/-- A reserved word reads as 0 and ignores writes (R63). -/
def Obligations.ReservedWordsReadZeroIgnoreWrites : Prop :=
  ∀ (s : State) (off : Nat) (v : Word) (rest : List BusEvent), ReservedOffset off →
    (s.bus = .read 4 off :: rest → step s = .next { s with bus := rest, reads := 0 :: s.reads }) ∧
    (s.bus = .write 4 off v :: rest → step s = .next { s with bus := rest })

/-- A write to a read-only register is ignored; a read of a write-only register returns 0 and has no effect (R64). -/
def Obligations.ReadOnlyAndWriteOnlyRegisters : Prop :=
  ∀ (s : State) (off : Nat) (v : Word) (rest : List BusEvent),
    (ReadOnlyOffset off → s.bus = .write 4 off v :: rest → step s = .next { s with bus := rest }) ∧
    (off = 0x000 ∨ off = 0x008 ∨ off = 0x010 → s.bus = .read 4 off :: rest →
      step s = .next { s with bus := rest, reads := 0 :: s.reads })

/-- Writing a data register: the value is stored as the register's rule says (PT keeps bits 7:0, W_HI bits 15:0, PT_SIZE only values up to 256), and nothing else changes, STATUS included (R21 to R25, R62). -/
def Obligations.DataRegisterWrites : Prop :=
  ∀ (s : State) (off : Nat) (v : Word) (rest : List BusEvent), s.bus = .write 4 off v :: rest →
    (∀ i : Fin 8, off = 0x040 + 4 * i.val → ∃ b, step s = .next { s with bus := rest, blk := b } ∧
      ∀ j : Fin 8, seg b j = if j = i then v else seg s.blk j) ∧
    (∀ i : Fin 8, off = 0x060 + 4 * i.val → ∃ ks : Vector Word 8, step s = .next { s with bus := rest, key := ks } ∧
      ∀ j : Fin 8, ks[j] = if j = i then v else s.key[j]) ∧
    (off = 0x080 → ∃ w : Wide, step s = .next { s with bus := rest, w := w } ∧
      w.extractLsb' 0 32 = v ∧ w.extractLsb' 32 16 = s.w.extractLsb' 32 16) ∧
    (off = 0x084 → ∃ w : Wide, step s = .next { s with bus := rest, w := w } ∧
      w.extractLsb' 32 16 = v.extractLsb' 0 16 ∧ w.extractLsb' 0 32 = s.w.extractLsb' 0 32) ∧
    (off = 0x018 → v.toNat ≤ 256 → ∃ n : BitVec 9, step s = .next { s with bus := rest, ptSize := n } ∧ n.toNat = v.toNat) ∧
    (off = 0x018 → 256 < v.toNat → step s = .next { s with bus := rest }) ∧
    (∀ k : Fin 256, off = 0x400 + 4 * k.val → ∃ p : Vector Byte 256, step s = .next { s with bus := rest, pt := p } ∧
      ∀ j : Fin 256, p[j] = if j = k then v.extractLsb' 0 8 else s.pt[j])

/-- BLK_W[i] is bytes 4i to 4i+3 of the block's 32-byte value, first byte most significant, byte k being `BLK[255-8k:248-8k]`; KEY[i]'s four bytes stand in the same order (R69). -/
def Obligations.BlockIsBigEndian : Prop :=
  (∀ (B : Block) (i : Fin 8),
    (seg B i).extractLsb' 24 8 = B.extractLsb' (248 - 8 * (4 * i.val)) 8 ∧
    (seg B i).extractLsb' 16 8 = B.extractLsb' (248 - 8 * (4 * i.val + 1)) 8 ∧
    (seg B i).extractLsb' 8 8 = B.extractLsb' (248 - 8 * (4 * i.val + 2)) 8 ∧
    (seg B i).extractLsb' 0 8 = B.extractLsb' (248 - 8 * (4 * i.val + 3)) 8) ∧
  (∀ (B : Block) (k : Fin 32), blockByte B k = B.extractLsb' (248 - 8 * k.val) 8) ∧
  (∀ v : Word, wordByte v 0 ++ wordByte v 1 ++ wordByte v 2 ++ wordByte v 3 = v)

/-! ### The codec family -/

/-- A write to HEX_PUSH: the digit is stored at HEXDIG[HEXCNT] when it is one and fewer than 64 were pushed, HEXBAD is set by a character that is none, HEXCNT counts and stops at 0xFFFF; nothing else changes (R110). -/
def Obligations.HexPushAppends : Prop :=
  ∀ (s : State) (v : Word) (rest : List BusEvent), s.bus = .write 4 0x008 v :: rest →
    ∃ (d : Vector Nibble 64) (c : BitVec 16) (bad : Bool),
      step s = .next { s with bus := rest, hexDig := d, hexCnt := c, hexBad := bad } ∧
      (∀ k : Fin 64, d[k] = if isHexDigit v = true ∧ k.val = s.hexCnt.toNat then digitValue v else s.hexDig[k]) ∧
      (bad = true ↔ s.hexBad = true ∨ isHexDigit v = false) ∧
      c.toNat = if s.hexCnt.toNat < 0xFFFF then s.hexCnt.toNat + 1 else s.hexCnt.toNat

/-- The 22 hex digit characters and their values, and no other 32-bit value (R111). -/
def Obligations.HexDigitsAreExactly22 : Prop :=
  ∀ (v : Word) (d : Nibble), (isHexDigit v = true ∧ digitValue v = d) ↔
    (v.toNat, d.toNat) ∈ [(0x30, 0), (0x31, 1), (0x32, 2), (0x33, 3), (0x34, 4), (0x35, 5), (0x36, 6), (0x37, 7),
      (0x38, 8), (0x39, 9), (0x61, 10), (0x62, 11), (0x63, 12), (0x64, 13), (0x65, 14), (0x66, 15),
      (0x41, 10), (0x42, 11), (0x43, 12), (0x44, 13), (0x45, 14), (0x46, 15)]

/-- LDBLK, all of R113: its word, its load with HEXDIG[0] most significant, FORMAT before BLOCK_SIZE, the port consumed whatever happens, BLK unchanged on error. -/
def Obligations.LdblkEffect : Prop :=
  encode .ldblk = 0x00000001#32 ∧ ∀ s : State,
    (s.hexBad = true ∨ s.hexCnt = 0 →
      exec .ldblk s = .next { s with hexCnt := 0, hexBad := false, hexDig := Vector.replicate 64 0,
                                     err := 1, eany := true, lastop := 0x01 }) ∧
    (s.hexBad = false → s.hexCnt ≠ 0 → s.hexCnt ≠ 64 →
      exec .ldblk s = .next { s with hexCnt := 0, hexBad := false, hexDig := Vector.replicate 64 0,
                                     err := 2, eany := true, lastop := 0x01 }) ∧
    (s.hexBad = false → s.hexCnt = 64 → ∃ b : Block,
      exec .ldblk s = .next { s with blk := b, hexCnt := 0, hexBad := false, hexDig := Vector.replicate 64 0,
                                     err := 0, lastop := 0x01 } ∧
      ∀ k : Fin 64, b.extractLsb' (252 - 4 * k.val) 4 = s.hexDig[k])

/-- LDKEY i, all of R114: as LDBLK with 8 digits, KEYSEG_SIZE and one key register; the other seven are never touched. -/
def Obligations.LdkeyEffect : Prop :=
  ∀ i : Fin 8, encode (.ldkey i) = 0x00000002#32 ||| BitVec.ofNat 32 i.val <<< 8 ∧ ∀ s : State,
    (s.hexBad = true ∨ s.hexCnt = 0 →
      exec (.ldkey i) s = .next { s with hexCnt := 0, hexBad := false, hexDig := Vector.replicate 64 0,
                                         err := 1, eany := true, lastop := 0x02 }) ∧
    (s.hexBad = false → s.hexCnt ≠ 0 → s.hexCnt ≠ 8 →
      exec (.ldkey i) s = .next { s with hexCnt := 0, hexBad := false, hexDig := Vector.replicate 64 0,
                                         err := 3, eany := true, lastop := 0x02 }) ∧
    (s.hexBad = false → s.hexCnt = 8 → ∃ ks : Vector Word 8,
      exec (.ldkey i) s = .next { s with key := ks, hexCnt := 0, hexBad := false, hexDig := Vector.replicate 64 0,
                                         err := 0, lastop := 0x02 } ∧
      (∀ j : Fin 8, j ≠ i → ks[j] = s.key[j]) ∧
      ∀ j : Fin 8, ks[i].extractLsb' (28 - 4 * j.val) 4 = s.hexDig[j.val])

/-- KMIX i: segment i becomes itself XOR KEY[i], the other segments and everything else but STATUS stay; KMIX i twice restores the block (R117). -/
def Obligations.KmixEffect : Prop :=
  ∀ (i : Fin 8) (s : State), encode (.kmix i) = 0x0000000A#32 ||| BitVec.ofNat 32 i.val <<< 8 ∧ (∃ b : Block,
      exec (.kmix i) s = .next { s with blk := b, err := 0, lastop := 0x0A } ∧
      ∀ j : Fin 8, seg b j = if j = i then seg s.blk i ^^^ s.key[i] else seg s.blk j) ∧
    ∃ t u, exec (.kmix i) s = .next t ∧ exec (.kmix i) t = .next u ∧ u.blk = s.blk

/-- The whole of `ldblk "s"`, for every text of every length from every state: the port is emptied, the text pushed and loaded. An empty text or one with a character that is no hex digit ends with FORMAT, any other of a length other than 64 with BLOCK_SIZE (never truncated, never padded), and 64 digits are the block (R100, R110, R112, R113, R116). What is pushed for a character outside ASCII, which is no hex digit, is the model's choice (log 13). -/
def Obligations.LdblkLineLoadsOrReports : Prop :=
  ∀ (text : List Char) (s : State), ∃ t, performAll (expandLine (.ldblk text)) s = .next t ∧
    t = { s with blk := t.blk, hexCnt := 0, hexBad := false, hexDig := Vector.replicate 64 0,
                 err := t.err, eany := s.eany || t.err != 0, lastop := 0x01 } ∧
    ((text = [] ∨ ∃ c ∈ text, isHexDigit (charWord c) = false) → t.err = 1 ∧ t.blk = s.blk) ∧
    ((text ≠ [] ∧ (∀ c ∈ text, isHexDigit (charWord c) = true) ∧ text.length ≠ 64) → t.err = 2 ∧ t.blk = s.blk) ∧
    (((∀ c ∈ text, isHexDigit (charWord c) = true) ∧ text.length = 64) → t.err = 0 ∧
      ∀ k : Fin 64, ∀ c, text[k.val]? = some c → t.blk.extractLsb' (252 - 4 * k.val) 4 = digitValue (charWord c))

/-- Rendering then loading: the 64 values read from BLKHEX[0..63] in one state, pushed after CLRHEX in any other state and loaded by LDBLK, give the first state's block there, with OK (R119). -/
def Obligations.RenderThenLoadRestoresBlock : Prop :=
  ∀ s u : State, ∃ t,
    performAll (assemble .clrHex ::
        ((List.finRange 64).map fun k => .write 4 0x008 (readReg (.blkHex k) s)) ++ [assemble .ldblk]) u = .next t ∧
      t.blk = s.blk ∧ t.err = 0

/-! ### The permutation family -/

/-- DERIVEPERM n, R134: a size above 256 makes an illegal word; for the others, SEED when the seed port is bad; otherwise entry k < n becomes entry k of the table PERM_SHUFFLE(SeedSum, n), the entries from n on stay, PT_SIZE becomes n, and nothing else but STATUS changes. -/
def Obligations.DerivePermEffect : Prop :=
  ∀ (n : BitVec 9) (s : State), encode (.derivePerm n) = 0x00000006#32 ||| n.setWidth 32 <<< 8 ∧
    (256 < n.toNat → ∃ e, decode (encode (.derivePerm n)) = .error e) ∧
    (n.toNat ≤ 256 → s.seedBad = true → exec (.derivePerm n) s = .next { s with err := 6, eany := true, lastop := 0x06 }) ∧
    (n.toNat ≤ 256 → s.seedBad = false → ∃ p : Vector Byte 256,
      exec (.derivePerm n) s = .next { s with pt := p, ptSize := n, err := 0, lastop := 0x06 } ∧
      (∀ k : Fin n.toNat, (p[k.val]?.getD 0).toNat =
        (Config.permShuffle ((s.seed.toList.take s.seedLen.toNat).map BitVec.toNat).sum n.toNat k).val) ∧
      ∀ k : Fin 256, n.toNat ≤ k.val → p[k] = s.pt[k])

/-- The derived table is always a permutation of 0..n-1, so after a successful DERIVEPERM 256 no PERM ends with NOT_PERMUTATION (R131, S3). -/
def Obligations.DerivedTableIsPermutation : Prop :=
  ∀ (n : BitVec 9) (s : State), n.toNat ≤ 256 → s.seedBad = false →
    ∃ t, exec (.derivePerm n) s = .next t ∧ IsPerm (PT t) n.toNat ∧
      (n = 256 → ∃ u, exec .perm t = .next u ∧ u.err = 0)

/-- Two seeds that are reorderings of each other give one table (R130). -/
def Obligations.AnagramSeedsGiveOneTable : Prop :=
  ∀ (n : BitVec 9) (s s' : State), n.toNat ≤ 256 → s.seedBad = false → s'.seedBad = false →
    (s.seed.toList.take s.seedLen.toNat).Perm (s'.seed.toList.take s'.seedLen.toNat) →
    ∃ t t', exec (.derivePerm n) s = .next t ∧ exec (.derivePerm n) s' = .next t' ∧
      ∀ k, k < n.toNat → PT t k = PT t' k

/-- PERM, R136: LENGTH_MISMATCH before NOT_PERMUTATION, each changing nothing but STATUS; otherwise output position i is input position PT[i]. -/
def Obligations.PermEffect : Prop :=
  encode .perm = 0x00000007#32 ∧ ∀ s : State,
    (s.ptSize ≠ 256 → exec .perm s = .next { s with err := 4, eany := true, lastop := 0x07 }) ∧
    (s.ptSize = 256 → ¬ IsPerm (PT s) 256 → exec .perm s = .next { s with err := 5, eany := true, lastop := 0x07 }) ∧
    (s.ptSize = 256 → IsPerm (PT s) 256 → ∃ b : Block,
      exec .perm s = .next { s with blk := b, err := 0, lastop := 0x07 } ∧
      ∀ i, i < 256 → pos b i = pos s.blk (PT s i))

/-- INVPERM, R138: the errors of PERM; otherwise output position PT[i] is input position i, and PT itself is not changed. -/
def Obligations.InvPermEffect : Prop :=
  encode .invPerm = 0x00000008#32 ∧ ∀ s : State,
    (s.ptSize ≠ 256 → exec .invPerm s = .next { s with err := 4, eany := true, lastop := 0x08 }) ∧
    (s.ptSize = 256 → ¬ IsPerm (PT s) 256 → exec .invPerm s = .next { s with err := 5, eany := true, lastop := 0x08 }) ∧
    (s.ptSize = 256 → IsPerm (PT s) 256 → ∃ b : Block,
      exec .invPerm s = .next { s with blk := b, err := 0, lastop := 0x08 } ∧
      ∀ i, i < 256 → pos b (PT s i) = pos s.blk i)

/-- PERM then INVPERM, and INVPERM then PERM, leave BLK unchanged under any permutation table (R137). -/
def Obligations.PermAndInvPermCancel : Prop :=
  ∀ s : State, s.ptSize = 256 → IsPerm (PT s) 256 →
    (∃ t u, exec .perm s = .next t ∧ exec .invPerm t = .next u ∧ u.err = 0 ∧ u.blk = s.blk) ∧
    (∃ t u, exec .invPerm s = .next t ∧ exec .perm t = .next u ∧ u.err = 0 ∧ u.blk = s.blk)

/-- INVERT, R140, for every PT_SIZE from 0 to 256: NOT_PERMUTATION with PT unchanged, or the new entry PT[k] is k for the old PT, the entries from PT_SIZE on stay. PT_SIZE ≤ 256 is part of the invariant (`State.Inv`). -/
def Obligations.InvertEffect : Prop :=
  encode .invert = 0x00000009#32 ∧ ∀ s : State, s.ptSize.toNat ≤ 256 →
    (¬ IsPerm (PT s) s.ptSize.toNat → exec .invert s = .next { s with err := 5, eany := true, lastop := 0x09 }) ∧
    (IsPerm (PT s) s.ptSize.toNat → ∃ p : Vector Byte 256,
      exec .invert s = .next { s with pt := p, err := 0, lastop := 0x09 } ∧
      (∀ k, k < s.ptSize.toNat → (p[PT s k]?.getD 0).toNat = k) ∧
      ∀ k : Fin 256, s.ptSize.toNat ≤ k.val → p[k] = s.pt[k])

/-- INVERT twice restores PT, for a permutation of any size 0..256 (R139, R140). -/
def Obligations.InvertTwiceRestores : Prop :=
  ∀ s : State, s.ptSize.toNat ≤ 256 → IsPerm (PT s) s.ptSize.toNat →
    ∃ t u, exec .invert s = .next t ∧ exec .invert t = .next u ∧ u.err = 0 ∧ u.pt = s.pt

/-- PT changes only by host writes to it, DERIVEPERM, INVERT, and reset (R141, R250). -/
def Obligations.WhatChangesTheTable : Prop :=
  ∀ s t : State, step s = .next t → t.pt ≠ s.pt → ∃ e rest, s.bus = e :: rest ∧
    ((∃ off v, e = .write 4 off v ∧ 0x400 ≤ off) ∨
     (∃ c : Word, e = .write 4 0x000 c ∧ (c.extractLsb' 0 8 = 0x06 ∨ c = 0x00000009#32)) ∨
     e = .reset)

/-- The entries of PT at and above PT_SIZE are read by no command and keep their values: two states that differ only there answer alike, whatever those entries hold (R24, R30). So nothing after reset depends on the draw of R251 before PT_SIZE is set. A size 257 to 511 of DERIVEPERM has no legal word; how it ends is the model's choice (log 7). -/
def Obligations.EntriesAboveSizeAreNotRead : Prop :=
  ∀ (i : Instr) (s t : State) (p : Vector Byte 256),
    (∀ k : Fin 256, k.val < s.ptSize.toNat → p[k] = s.pt[k]) → exec i s = .next t →
    ∃ q : Vector Byte 256, exec i { s with pt := p } = .next { t with pt := q } ∧
      ∀ k : Fin 256,
        ((k.val < s.ptSize.toNat ∨ k.val < t.ptSize.toNat) → q[k] = t.pt[k]) ∧
        (s.ptSize.toNat ≤ k.val → t.ptSize.toNat ≤ k.val → q[k] = p[k] ∧ t.pt[k] = s.pt[k])

/-! ### The key derivation family -/

/-- A write to SEED_PUSH: a value that is no scalar, or one more than 256, sets SEEDBAD and is dropped; any other is appended; nothing else changes (R150, R151). -/
def Obligations.SeedPushAppendsOrDrops : Prop :=
  ∀ (s : State) (v : Word) (rest : List BusEvent), s.bus = .write 4 0x010 v :: rest → s.seedLen.toNat ≤ 256 →
    (¬ (v.toNat ≤ 0xD7FF ∨ (0xE000 ≤ v.toNat ∧ v.toNat ≤ 0x10FFFF)) ∨ s.seedLen = 256 →
      step s = .next { s with bus := rest, seedBad := true }) ∧
    ((v.toNat ≤ 0xD7FF ∨ (0xE000 ≤ v.toNat ∧ v.toNat ≤ 0x10FFFF)) → s.seedLen ≠ 256 →
      ∃ (q : Vector CodePoint 256) (n : BitVec 9), step s = .next { s with bus := rest, seed := q, seedLen := n } ∧
        n.toNat = s.seedLen.toNat + 1 ∧
        ∀ k : Fin 256, if k.val = s.seedLen.toNat then q[k].toNat = v.toNat else q[k] = s.seed[k])

/-- Pushing a text appends its code points to the seed held, as long as they fit; one more than 256 makes the seed bad (R150, R153, R258). -/
def Obligations.SeedTextIsAppended : Prop :=
  ∀ (text : List Char) (s : State), s.seedLen.toNat ≤ 256 →
    ∃ t, performAll (text.map fun c => .write 4 0x010 (charWord c)) s = .next t ∧
      t = { s with seed := t.seed, seedLen := t.seedLen, seedBad := t.seedBad } ∧
      (s.seedLen.toNat + text.length ≤ 256 → t.seedBad = s.seedBad ∧
        (t.seed.toList.take t.seedLen.toNat).map BitVec.toNat =
          (s.seed.toList.take s.seedLen.toNat).map BitVec.toNat ++ text.map Char.toNat) ∧
      (256 < s.seedLen.toNat + text.length → t.seedBad = true ∧ t.seedLen = 256)

/-- DERIVEKEY, R157: SEED when the seed port is bad, with KEY unchanged; otherwise KEY[i] becomes bits 255-32i down to 224-32i of KDF_HASH of the seed, for all eight i, the seed port is kept, and nothing else but STATUS changes. -/
def Obligations.DeriveKeyEffect : Prop :=
  encode .deriveKey = 0x00000005#32 ∧ ∀ s : State,
    (s.seedBad = true → exec .deriveKey s = .next { s with err := 6, eany := true, lastop := 0x05 }) ∧
    (s.seedBad = false → ∃ ks : Vector Word 8,
      exec .deriveKey s = .next { s with key := ks, err := 0, lastop := 0x05 } ∧
      ∀ i : Fin 8, ks[i] = (Config.kdfHash (s.seed.toList.take s.seedLen.toNat)).extractLsb' (224 - 32 * i.val) 32)

/-- Between two DERIVEKEY commands with no SEED_PUSH, no CLRSEED and no reset between them, the two write the same keys, and two DERIVEPERM commands of one size the same table, whatever else the host did in between (R158). -/
def Obligations.DerivationIsStable : Prop :=
  ∀ (es : List BusEvent) (s t : State), (∀ e ∈ es, ¬ TouchesSeed e) → s.seedBad = false →
    performAll es s = .next t →
    (∃ s' t', exec .deriveKey s = .next s' ∧ exec .deriveKey t = .next t' ∧ t'.key = s'.key) ∧
    ∀ n : BitVec 9, n.toNat ≤ 256 →
      ∃ s' t', exec (.derivePerm n) s = .next s' ∧ exec (.derivePerm n) t = .next t' ∧
        t'.ptSize = s'.ptSize ∧ ∀ k, k < n.toNat → PT t' k = PT s' k

/-! ### The segment transform family -/

/-- EXPAND, SUBST, RSUBST, REXPAND: the mapping from segment i to W, or from W to segment i; the other segments, and everything else but STATUS, stay (R173 to R176). -/
def Obligations.SegmentCommandEffects : Prop :=
  ∀ (i : Fin 8) (s : State),
    (encode (.expand i) = 0x0000000B#32 ||| BitVec.ofNat 32 i.val <<< 8 ∧
      exec (.expand i) s = .next { s with w := Config.segTransform.expand (seg s.blk i), err := 0, lastop := 0x0B }) ∧
    (encode (.subst i) = 0x0000000C#32 ||| BitVec.ofNat 32 i.val <<< 8 ∧ ∃ b : Block,
      exec (.subst i) s = .next { s with blk := b, err := 0, lastop := 0x0C } ∧
      ∀ j : Fin 8, seg b j = if j = i then Config.segTransform.subst s.w else seg s.blk j) ∧
    (encode (.rsubst i) = 0x0000000D#32 ||| BitVec.ofNat 32 i.val <<< 8 ∧
      exec (.rsubst i) s = .next { s with w := Config.segTransform.rsubst (seg s.blk i), err := 0, lastop := 0x0D }) ∧
    (encode (.rexpand i) = 0x0000000E#32 ||| BitVec.ofNat 32 i.val <<< 8 ∧ ∃ b : Block,
      exec (.rexpand i) s = .next { s with blk := b, err := 0, lastop := 0x0E } ∧
      ∀ j : Fin 8, seg b j = if j = i then Config.segTransform.rexpand s.w else seg s.blk j)

/-- EXPAND i, SUBST i, RSUBST i, REXPAND i one after the other run to their end and leave BLK as it was, for every instance of the mappings (R170, R176); that each ends with OK is said in `SegmentCommandEffects`. -/
def Obligations.SegmentRoundTrip : Prop :=
  ∀ (i : Fin 8) (s : State), ∃ t,
    performAll (commands [.expand i, .subst i, .rsubst i, .rexpand i]) s = .next t ∧ t.blk = s.blk

/-- F and G are inverse to each other in both orders, though only G(F(x)) = x is assumed (R171). -/
def Obligations.ForwardAndBackwardAreInverse : Prop :=
  ∀ x : Word, G (F x) = x ∧ F (G x) = x

/-- The step-by-step paths of one segment: EXPAND i, SUBST i, KMIX i make it F(segment) XOR KEY[i]; KMIX i, RSUBST i, REXPAND i make it G(segment XOR KEY[i]); the other segments, KEY, PT and PT_SIZE stay (R177). -/
def Obligations.StepwiseSegmentPaths : Prop :=
  ∀ (i : Fin 8) (s : State),
    (∃ t, performAll (commands [.expand i, .subst i, .kmix i]) s = .next t ∧
      (∀ j : Fin 8, seg t.blk j = if j = i then F (seg s.blk i) ^^^ s.key[i] else seg s.blk j) ∧
      t.key = s.key ∧ t.pt = s.pt ∧ t.ptSize = s.ptSize ∧ t.w = Config.segTransform.expand (seg s.blk i)) ∧
    (∃ t, performAll (commands [.kmix i, .rsubst i, .rexpand i]) s = .next t ∧
      (∀ j : Fin 8, seg t.blk j = if j = i then G (seg s.blk i ^^^ s.key[i]) else seg s.blk j) ∧
      t.key = s.key ∧ t.pt = s.pt ∧ t.ptSize = s.ptSize ∧ t.w = Config.segTransform.rsubst (seg s.blk i ^^^ s.key[i]))

/-- With the identity table, the 24 step-by-step commands for i = 0..7 leave the block ENC leaves, and the 24 inverse ones the block DEC leaves (R177, program Q3 of 95_test_vectors.md). -/
def Obligations.StepwisePathsEqualEncAndDec : Prop :=
  ∀ s : State, s.ptSize = 256 → (∀ k, k < 256 → PT s k = k) →
    (∃ t u, exec .enc s = .next t ∧
      performAll (commands forwardPaths) s = .next u ∧ u.blk = t.blk) ∧
    (∃ t u, exec .dec s = .next t ∧
      performAll (commands inversePaths) s = .next u ∧ u.blk = t.blk)

/-! ### The pipeline family -/

/-- ENC, R192 and R193: LENGTH_MISMATCH before NOT_PERMUTATION, each changing nothing but STATUS; otherwise segment i of the result is F of segment i of the permuted block, XOR KEY[i], and nothing but BLK and STATUS changes. -/
def Obligations.EncEffect : Prop :=
  encode .enc = 0x00000003#32 ∧ ∀ s : State,
    (s.ptSize ≠ 256 → exec .enc s = .next { s with err := 4, eany := true, lastop := 0x03 }) ∧
    (s.ptSize = 256 → ¬ IsPerm (PT s) 256 → exec .enc s = .next { s with err := 5, eany := true, lastop := 0x03 }) ∧
    (s.ptSize = 256 → IsPerm (PT s) 256 → ∃ b1 b : Block,
      exec .enc s = .next { s with blk := b, err := 0, lastop := 0x03 } ∧
      (∀ p, p < 256 → pos b1 p = pos s.blk (PT s p)) ∧
      ∀ i : Fin 8, seg b i = F (seg b1 i) ^^^ s.key[i])

/-- DEC, R194 and R195: the errors of ENC; otherwise position PT[p] of the result is position p of the block whose segment i is G of the input's segment i XOR KEY[i], and nothing but BLK and STATUS changes. -/
def Obligations.DecEffect : Prop :=
  encode .dec = 0x00000004#32 ∧ ∀ s : State,
    (s.ptSize ≠ 256 → exec .dec s = .next { s with err := 4, eany := true, lastop := 0x04 }) ∧
    (s.ptSize = 256 → ¬ IsPerm (PT s) 256 → exec .dec s = .next { s with err := 5, eany := true, lastop := 0x04 }) ∧
    (s.ptSize = 256 → IsPerm (PT s) 256 → ∃ b2 b : Block,
      exec .dec s = .next { s with blk := b, err := 0, lastop := 0x04 } ∧
      (∀ i : Fin 8, seg b2 i = G (seg s.blk i ^^^ s.key[i])) ∧
      ∀ p, p < 256 → pos b (PT s p) = pos b2 p)

/-- ENC then DEC, and DEC then ENC, with KEY and PT as they are, succeed and restore the block, for every key, every permutation table and every instance of the mappings (R196). -/
def Obligations.EncAndDecRoundTrip : Prop :=
  ∀ s : State, s.ptSize = 256 → IsPerm (PT s) 256 →
    (∃ t u, exec .enc s = .next t ∧ t.err = 0 ∧ exec .dec t = .next u ∧ u.err = 0 ∧ u.blk = s.blk) ∧
    (∃ t u, exec .dec s = .next t ∧ t.err = 0 ∧ exec .enc t = .next u ∧ u.err = 0 ∧ u.blk = s.blk)

/-- ENC and DEC write BLK and STATUS and nothing else, whether they succeed or fail: not KEY, PT, PT_SIZE, W, the hex port or the seed port (R197); nor do PERM and INVPERM, whose rules name BLK as what they write (R136, R138), with STATUS as every command ends (R225, R226). -/
def Obligations.BlockCommandsWriteOnlyBlockAndStatus : Prop :=
  ∀ (i : Instr) (s t : State), i = .enc ∨ i = .dec ∨ i = .perm ∨ i = .invPerm → exec i s = .next t →
    t = { s with blk := t.blk, err := t.err, eany := t.eany, lastop := opcode i }

/-- Locality: a change of the ENC input at position PT[i] changes only the output segment that holds position i; a change of DEC's input segment j changes only the output positions PT[32j..32j+31] (R201). -/
def Obligations.EncAndDecLocality : Prop :=
  ∀ s : State, s.ptSize = 256 → IsPerm (PT s) 256 →
    (∀ (i : Nat) (B : Block), i < 256 → (∀ q, q < 256 → q ≠ PT s i → pos B q = pos s.blk q) →
      ∃ t t', exec .enc s = .next t ∧ exec .enc { s with blk := B } = .next t' ∧
        ∀ j : Fin 8, j.val ≠ i / 32 → seg t'.blk j = seg t.blk j) ∧
    (∀ (j : Fin 8) (B : Block), (∀ k : Fin 8, k ≠ j → seg B k = seg s.blk k) →
      ∃ t t', exec .dec s = .next t ∧ exec .dec { s with blk := B } = .next t' ∧
        ∀ q, q < 256 → (∀ m, m < 32 → PT s (32 * j.val + m) ≠ q) → pos t'.blk q = pos t.blk q)

/-- Key pairing: with another key in KEY[j], ENC gives another segment j at most, and DEC differs at most where segment j of the ciphertext goes (R198). -/
def Obligations.KeySegmentTouchesOnlyItsLane : Prop :=
  ∀ (s : State) (j : Fin 8) (k : Word), s.ptSize = 256 → IsPerm (PT s) 256 →
    (∃ t t', exec .enc s = .next t ∧ exec .enc { s with key := s.key.set j k } = .next t' ∧
      (∀ i : Fin 8, i ≠ j → seg t'.blk i = seg t.blk i) ∧ seg t'.blk j = seg t.blk j ^^^ s.key[j] ^^^ k) ∧
    (∃ t t', exec .dec s = .next t ∧ exec .dec { s with key := s.key.set j k } = .next t' ∧
      ∀ q, q < 256 → (∀ m, m < 32 → PT s (32 * j.val + m) ≠ q) → pos t'.blk q = pos t.blk q)

/-! ### Control, STATUS, errors -/

/-- NOP, CLRHEX, CLRSEED and CLRERR: their words, and exactly what each writes (R210, R115, R152, R211). -/
def Obligations.ControlCommandEffects : Prop :=
  (encode .nop = 0x00000000#32 ∧ encode .clrHex = 0x0000000F#32 ∧ encode .clrSeed = 0x00000010#32 ∧ encode .clrErr = 0x00000011#32) ∧
  ∀ s : State,
    exec .nop s = .next { s with err := 0, lastop := 0x00 } ∧
    exec .clrHex s = .next { s with hexCnt := 0, hexBad := false, hexDig := Vector.replicate 64 0, err := 0, lastop := 0x0F } ∧
    exec .clrSeed s = .next { s with seedLen := 0, seedBad := false, seed := Vector.replicate 256 0, err := 0, lastop := 0x10 } ∧
    exec .clrErr s = .next { s with err := 0, eany := false, lastop := 0x11 }

/-- Every command runs to its end in every state, and leaves its opcode in LASTOP: none is ever refused and nothing blocks it, whatever STATUS holds (R26, R227, R228). A size 257 to 511 of DERIVEPERM has no legal word; how it ends is the model's choice (log 7). -/
def Obligations.EveryCommandCompletes : Prop :=
  ∀ (i : Instr) (s : State), ∃ t, exec i s = .next t ∧ t.lastop = opcode i

/-- Success: a command that ends with OK leaves EANY as it was, except CLRERR (R225). A size 257 to 511 of DERIVEPERM has no legal word; how it ends is the model's choice (log 7). -/
def Obligations.SuccessKeepsStickyError : Prop :=
  ∀ (i : Instr) (s t : State), exec i s = .next t → t.err = 0 → i ≠ .clrErr → t.eany = s.eany

/-- Failure: a command that ends with an error sets EANY and changes nothing but STATUS, except that LDBLK and LDKEY have consumed the hex port (R226). A size 257 to 511 of DERIVEPERM has no legal word; how it ends is the model's choice (log 7). -/
def Obligations.FailureChangesOnlyStatusAndHexPort : Prop :=
  ∀ (i : Instr) (s t : State), exec i s = .next t → t.err ≠ 0 →
    t.eany = true ∧ t.lastop = opcode i ∧
    t = { s with err := t.err, eany := true, lastop := t.lastop, hexCnt := t.hexCnt, hexBad := t.hexBad, hexDig := t.hexDig } ∧
    ((i ≠ .ldblk ∧ ∀ k, i ≠ .ldkey k) → t.hexCnt = s.hexCnt ∧ t.hexBad = s.hexBad ∧ t.hexDig = s.hexDig) ∧
    ((i = .ldblk ∨ ∃ k, i = .ldkey k) → t.hexCnt = 0 ∧ t.hexBad = false ∧ t.hexDig = Vector.replicate 64 0)

/-- An error blocks nothing and steers nothing: with any STATUS before it, a command does the same to every other register and ends with the same code (R228). A size 257 to 511 of DERIVEPERM has no legal word; how it ends is the model's choice (log 7). -/
def Obligations.StatusDoesNotInfluenceCommands : Prop :=
  ∀ (i : Instr) (s t : State) (e : BitVec 4) (a : Bool) (l : BitVec 8), exec i s = .next t →
    ∃ a', exec i { s with err := e, eany := a, lastop := l } = .next { t with eany := a' }

/-- Retrying fails again with the same code: after a failed command, other than LDBLK and LDKEY which have consumed their input, the same command fails alike and leaves the state it found (R228). A size 257 to 511 of DERIVEPERM has no legal word; how it ends is the model's choice (log 7). -/
def Obligations.RetryFailsAlike : Prop :=
  ∀ (i : Instr) (s t : State), i ≠ .ldblk → (∀ k, i ≠ .ldkey k) → exec i s = .next t → t.err ≠ 0 → exec i t = .next t

/-- EANY, once 1, stays 1 over every step but a CLRERR word and reset (R26, R228). -/
def Obligations.OnlyClrErrAndResetClearEany : Prop :=
  ∀ s t : State, step s = .next t → s.eany = true → t.eany = false →
    ∃ e rest, s.bus = e :: rest ∧ (e = .write 4 0x000 0x00000011#32 ∨ e = .reset)

/-! ### Reset and invariants -/

/-- Reset in the middle of a run, from any state: every register is 0 and both ports are empty, the CORE takes the next access as after power-on; nothing is said of PT (R250, R251, R256). That the host's events still to come and the values read stay, and that the count of resets goes up by one, is the model's choice (log 2). -/
def Obligations.ResetClearsEverythingButTheTable : Prop :=
  ∀ (s : State) (rest : List BusEvent), s.bus = .reset :: rest → ∃ p : Vector Byte 256,
    step s = .next { blk := 0, key := Vector.replicate 8 0, w := 0, pt := p, ptSize := 0, err := 0, eany := false, lastop := 0,
                     hexCnt := 0, hexBad := false, hexDig := Vector.replicate 64 0, seed := Vector.replicate 256 0,
                     seedLen := 0, seedBad := false, bus := rest, reads := s.reads, resets := s.resets + 1 }

/-- The state a run starts from holds 0 in every register but PT (R250, R30), and there ENC and DEC (R254), PERM (R136) and INVPERM (R138) end with LENGTH_MISMATCH while INVERT succeeds and leaves PT as it is (R140), whatever PT holds. That the lists of events and of values read are empty is the model's choice (log 1), and so is the count of resets starting at 0 (log 2). -/
def Obligations.ResetStateAndItsFirstCommands : Prop :=
  State.reset = { blk := 0, key := Vector.replicate 8 0, w := 0, pt := State.reset.pt, ptSize := 0, err := 0, eany := false, lastop := 0,
                  hexCnt := 0, hexBad := false, hexDig := Vector.replicate 64 0, seed := Vector.replicate 256 0,
                  seedLen := 0, seedBad := false, bus := [], reads := [], resets := 0 } ∧
  (∀ i : Instr, i = .enc ∨ i = .dec ∨ i = .perm ∨ i = .invPerm →
    exec i State.reset = .next { State.reset with err := 4, eany := true, lastop := opcode i }) ∧
  exec .invert State.reset = .next { State.reset with lastop := 0x09 }

/-- There is no soft reset, but commands and writes bring every register except PT to its reset value from any state: CLRHEX, CLRSEED, CLRERR, NOP, and zeros written to BLK_W, KEY, W_LO, W_HI, PT_SIZE (R252). -/
def Obligations.CommandsAndWritesReachResetValues : Prop :=
  ∀ s : State,
    performAll (commands [.clrHex, .clrSeed, .clrErr, .nop] ++
      expandLine (.wrblk (Vector.replicate 8 0)) ++ expandLine (.wrkey (Vector.replicate 8 0)) ++
      expandLine (.wr (.reg .wLo) 0) ++ expandLine (.wr (.reg .wHi) 0) ++ expandLine (.wr (.reg .ptSize) 0)) s =
    .next { State.reset with pt := s.pt, bus := s.bus, reads := s.reads, resets := s.resets }

/-- The invariant holds in the reset state. -/
def Obligations.InvariantHoldsAtReset : Prop :=
  State.reset.Inv

/-- Every step keeps the invariant: PT_SIZE and SEEDLEN stay in 0..256, ERR stands only beside an opcode that can raise it (so codes 8..15 are never produced), an error in ERR is also in EANY, unpushed digits and code points are 0, every code point held is a Unicode scalar value (R25 to R28, R110, R150, R220). -/
def Obligations.StepKeepsInvariant : Prop :=
  ∀ s t : State, s.Inv → step s = .next t → t.Inv
end

