-- ==== Sys2Proof/Laws/Block.lean ====
section
/-! SUPPORT. Laws of digit strings, positions, segments and hex digits of a block (Machine/Operands.lean). -/

namespace Sys2Proof.Machine

/-! ### Digit strings -/

@[simp] theorem numeral_nil (b : Nat) : numeral b [] = 0 := rfl

@[simp] theorem numeral_snoc (b : Nat) (l : List Nat) (d : Nat) :
    numeral b (l ++ [d]) = b * numeral b l + d := by
  simp [numeral, List.foldl_append]

theorem numeral_lt (b : Nat) (l : List Nat) (h : ∀ d ∈ l, d < b) : numeral b l < b ^ l.length := by
  induction l using List.reverseRecOn with
  | nil => simp
  | append_singleton l d ih =>
    have hd : d < b := h d (by simp)
    have hl : numeral b l < b ^ l.length := ih fun x hx => h x (by simp [hx])
    rw [numeral_snoc, List.length_append, List.length_singleton, pow_succ]
    calc b * numeral b l + d < b * numeral b l + b := by omega
      _ = (numeral b l + 1) * b := by ring
      _ ≤ b ^ l.length * b := Nat.mul_le_mul_right b hl

/-- Digit i, counted from the most significant, of a digit string's value is its entry i. -/
theorem numeral_digit (b : Nat) (l : List Nat) (h : ∀ d ∈ l, d < b) (i : Nat) (hi : i < l.length) :
    numeral b l / b ^ (l.length - 1 - i) % b = l[i] := by
  induction l using List.reverseRecOn with
  | nil => simp at hi
  | append_singleton l d ih =>
    have hd : d < b := h d (by simp)
    have hb : 0 < b := by omega
    rw [numeral_snoc]
    simp only [List.length_append, List.length_singleton] at hi ⊢
    rcases Nat.lt_or_ge i l.length with hlt | hge
    · have hexp : l.length + 1 - 1 - i = (l.length - 1 - i) + 1 := by omega
      rw [List.getElem_append_left hlt, hexp, pow_succ, Nat.mul_comm (b ^ _) b, ← Nat.div_div_eq_div_mul,
        Nat.mul_add_div hb, Nat.div_eq_of_lt hd, Nat.add_zero]
      exact ih (fun x hx => h x (by simp [hx])) hlt
    · have hi' : i = l.length := by omega
      subst hi'
      simp [Nat.mod_eq_of_lt hd]

/-! ### Positions -/

/-- Two blocks with the same bit at every position are equal. -/
theorem block_ext_pos {A B : Block} (h : ∀ i, i < 256 → pos A i = pos B i) : A = B := by
  apply BitVec.eq_of_getLsbD_eq
  intro i hi
  have := h (255 - i) (by omega)
  simpa [pos, show 255 - (255 - i) = i by omega] using this

theorem pos_blockOfPositions (bits : List Bool) (hlen : bits.length = 256) (i : Nat) (hi : i < 256) :
    pos (blockOfPositions bits) i = bits[i] := by
  have hdig : ∀ d ∈ bits.map Bool.toNat, d < 2 := by
    intro d hd
    obtain ⟨c, -, rfl⟩ := List.mem_map.mp hd
    exact Bool.toNat_lt c
  have key := numeral_digit 2 (bits.map Bool.toNat) hdig i (by simp [hlen, hi])
  simp only [List.length_map, hlen, List.getElem_map] at key
  unfold pos blockOfPositions
  rw [BitVec.getLsbD_ofNat, Nat.testBit_eq_decide_div_mod_eq, show 255 - i = 256 - 1 - i by omega, key]
  have : 256 - 1 - i < 256 := by omega
  cases bits[i] <;> simp [this]

/-! ### Segments -/

theorem cat8_eq (s : Vector Word 8) :
    cat8 s = (s[0] ++ s[1] ++ s[2] ++ s[3] ++ s[4] ++ s[5] ++ s[6] ++ s[7] : BitVec (32 + 32 + 32 + 32 + 32 + 32 + 32 + 32)) := rfl

theorem extract_append_low {m n : Nat} (x : BitVec m) (y : BitVec n) :
    (x ++ y).extractLsb' 0 n = y := by
  apply BitVec.eq_of_getLsbD_eq
  intro j hj
  simp [BitVec.getLsbD_append, hj]

theorem extract_append_high {m n : Nat} (x : BitVec m) (y : BitVec n) (k w : Nat) :
    (x ++ y).extractLsb' (n + k) w = x.extractLsb' k w := by
  apply BitVec.eq_of_getLsbD_eq
  intro j hj
  simp [BitVec.getLsbD_append, hj, Nat.add_assoc]

@[simp] theorem seg_cat8 (s : Vector Word 8) (i : Fin 8) : seg (cat8 s) i = s[i] := by
  have low := @extract_append_low
  have high := @extract_append_high
  unfold seg
  rw [cat8_eq]
  fin_cases i
  · exact (high _ s[7] 192 32).trans <| (high _ s[6] 160 32).trans <| (high _ s[5] 128 32).trans <|
      (high _ s[4] 96 32).trans <| (high _ s[3] 64 32).trans <| (high _ s[2] 32 32).trans <|
      (high _ s[1] 0 32).trans (BitVec.extractLsb'_eq_self)
  · exact (high _ s[7] 160 32).trans <| (high _ s[6] 128 32).trans <| (high _ s[5] 96 32).trans <|
      (high _ s[4] 64 32).trans <| (high _ s[3] 32 32).trans <| (high _ s[2] 0 32).trans (low _ _)
  · exact (high _ s[7] 128 32).trans <| (high _ s[6] 96 32).trans <| (high _ s[5] 64 32).trans <|
      (high _ s[4] 32 32).trans <| (high _ s[3] 0 32).trans (low _ _)
  · exact (high _ s[7] 96 32).trans <| (high _ s[6] 64 32).trans <| (high _ s[5] 32 32).trans <|
      (high _ s[4] 0 32).trans (low _ _)
  · exact (high _ s[7] 64 32).trans <| (high _ s[6] 32 32).trans <| (high _ s[5] 0 32).trans (low _ _)
  · exact (high _ s[7] 32 32).trans <| (high _ s[6] 0 32).trans (low _ _)
  · exact (high _ s[7] 0 32).trans (low _ _)
  · exact low _ _

/-- Position 32i+j of a block is bit 31-j of its segment i (R14). -/
theorem pos_eq_seg (B : Block) (i : Fin 8) (j : Nat) (hj : j < 32) :
    pos B (32 * i.val + j) = (seg B i).getLsbD (31 - j) := by
  have hi := i.isLt
  simp only [pos, seg, BitVec.getLsbD_extractLsb', show 31 - j < 32 by omega, decide_true, Bool.true_and]
  congr 1
  omega

/-- Two blocks with the same eight segments are equal. -/
theorem block_ext_seg {A B : Block} (h : ∀ i, seg A i = seg B i) : A = B := by
  apply block_ext_pos
  intro p hp
  have hq : p / 32 < 8 := by omega
  have split : p = 32 * (⟨p / 32, hq⟩ : Fin 8).val + p % 32 := by simp only; omega
  rw [split, pos_eq_seg A _ _ (by omega), pos_eq_seg B _ _ (by omega), h]

/-- `cat8(seg(B,0), ..., seg(B,7)) = B` (R14). -/
@[simp] theorem cat8_seg (B : Block) : cat8 (Vector.ofFn fun i => seg B i) = B :=
  block_ext_seg fun i => by simp

@[simp] theorem seg_setSeg (B : Block) (i j : Fin 8) (v : Word) :
    seg (setSeg B i v) j = if j = i then v else seg B j := by
  simp [setSeg]

/-! ### Hex digits -/

theorem hexValue_digit (digits : List Nibble) (m : Nat) (hm : digits.length = m) (k : Nat) (hk : k < m) :
    (BitVec.ofNat (4 * m) (numeral 16 (digits.map BitVec.toNat))).extractLsb' (4 * m - 4 - 4 * k) 4 = digits[k] := by
  have hlt : ∀ d ∈ digits.map BitVec.toNat, d < 16 := by
    intro d hd
    obtain ⟨c, -, rfl⟩ := List.mem_map.mp hd
    exact c.isLt
  have hnum := numeral_lt 16 _ hlt
  have hdig := numeral_digit 16 _ hlt k (by simp [hm, hk])
  simp only [List.length_map, hm, List.getElem_map] at hnum hdig
  have hpow : (16 : Nat) ^ m = 2 ^ (4 * m) := by rw [pow_mul]; norm_num
  have hpow' : (16 : Nat) ^ (m - 1 - k) = 2 ^ (4 * m - 4 - 4 * k) := by
    rw [show 4 * m - 4 - 4 * k = 4 * (m - 1 - k) by omega, pow_mul]; norm_num
  apply BitVec.eq_of_toNat_eq
  rw [hpow] at hnum
  rw [BitVec.extractLsb'_toNat, BitVec.toNat_ofNat, Nat.mod_eq_of_lt hnum, Nat.shiftRight_eq_div_pow, ← hpow', ← hdig]

/-- A 256-bit value is determined by its 64 hex digits. -/
theorem block_ext_digit {A B : Block} (h : ∀ k, blockDigit A k = blockDigit B k) : A = B := by
  apply BitVec.eq_of_getLsbD_eq
  intro p hp
  have hk : 63 - p / 4 < 64 := by omega
  have := congrArg (fun d => d.getLsbD (p % 4)) (h ⟨63 - p / 4, hk⟩)
  simpa [blockDigit, Nat.mod_lt, show 252 - 4 * (63 - p / 4) + p % 4 = p by omega] using this

/-- A 32-bit value is determined by its 8 hex digits. -/
theorem word_ext_digit {a b : Word} (h : ∀ j, wordDigit a j = wordDigit b j) : a = b := by
  apply BitVec.eq_of_getLsbD_eq
  intro p hp
  have hk : 7 - p / 4 < 8 := by omega
  have := congrArg (fun d => d.getLsbD (p % 4)) (h ⟨7 - p / 4, hk⟩)
  simpa [wordDigit, Nat.mod_lt, show 28 - 4 * (7 - p / 4) + p % 4 = p by omega] using this

/-! ### Characters -/

@[simp] theorem isHexDigit_hexchar (d : Nibble) : isHexDigit (hexchar d) = true := by
  revert d; decide

@[simp] theorem digitValue_hexchar (d : Nibble) : digitValue (hexchar d) = d := by
  revert d; decide

end Sys2Proof.Machine
end

