-- ==== Sys2Proof/Laws/State.lean ====
section
/-! SUPPORT. One lemma per field and named state update: what the update makes of the field (Machine/Ops.lean, Machine/Window.lean, Machine/State.lean). -/

namespace Sys2Proof.Machine

/-! ### raiseAt -/

@[simp] theorem raiseAt_blk (op : BitVec 8) (e : ErrorCode) (s : State) : (raiseAt op e s).blk = s.blk := rfl
@[simp] theorem raiseAt_key (op : BitVec 8) (e : ErrorCode) (s : State) : (raiseAt op e s).key = s.key := rfl
@[simp] theorem raiseAt_w (op : BitVec 8) (e : ErrorCode) (s : State) : (raiseAt op e s).w = s.w := rfl
@[simp] theorem raiseAt_pt (op : BitVec 8) (e : ErrorCode) (s : State) : (raiseAt op e s).pt = s.pt := rfl
@[simp] theorem raiseAt_ptSize (op : BitVec 8) (e : ErrorCode) (s : State) : (raiseAt op e s).ptSize = s.ptSize := rfl
@[simp] theorem raiseAt_err (op : BitVec 8) (e : ErrorCode) (s : State) : (raiseAt op e s).err = errorCode e := rfl
@[simp] theorem raiseAt_eany (op : BitVec 8) (e : ErrorCode) (s : State) : (raiseAt op e s).eany = true := rfl
@[simp] theorem raiseAt_lastop (op : BitVec 8) (e : ErrorCode) (s : State) : (raiseAt op e s).lastop = op := rfl
@[simp] theorem raiseAt_hexCnt (op : BitVec 8) (e : ErrorCode) (s : State) : (raiseAt op e s).hexCnt = s.hexCnt := rfl
@[simp] theorem raiseAt_hexBad (op : BitVec 8) (e : ErrorCode) (s : State) : (raiseAt op e s).hexBad = s.hexBad := rfl
@[simp] theorem raiseAt_hexDig (op : BitVec 8) (e : ErrorCode) (s : State) : (raiseAt op e s).hexDig = s.hexDig := rfl
@[simp] theorem raiseAt_seed (op : BitVec 8) (e : ErrorCode) (s : State) : (raiseAt op e s).seed = s.seed := rfl
@[simp] theorem raiseAt_seedLen (op : BitVec 8) (e : ErrorCode) (s : State) : (raiseAt op e s).seedLen = s.seedLen := rfl
@[simp] theorem raiseAt_seedBad (op : BitVec 8) (e : ErrorCode) (s : State) : (raiseAt op e s).seedBad = s.seedBad := rfl
@[simp] theorem raiseAt_bus (op : BitVec 8) (e : ErrorCode) (s : State) : (raiseAt op e s).bus = s.bus := rfl
@[simp] theorem raiseAt_reads (op : BitVec 8) (e : ErrorCode) (s : State) : (raiseAt op e s).reads = s.reads := rfl
@[simp] theorem raiseAt_resets (op : BitVec 8) (e : ErrorCode) (s : State) : (raiseAt op e s).resets = s.resets := rfl

/-! ### clearHexPort -/

@[simp] theorem clearHexPort_blk (s : State) : (clearHexPort s).blk = s.blk := rfl
@[simp] theorem clearHexPort_key (s : State) : (clearHexPort s).key = s.key := rfl
@[simp] theorem clearHexPort_w (s : State) : (clearHexPort s).w = s.w := rfl
@[simp] theorem clearHexPort_pt (s : State) : (clearHexPort s).pt = s.pt := rfl
@[simp] theorem clearHexPort_ptSize (s : State) : (clearHexPort s).ptSize = s.ptSize := rfl
@[simp] theorem clearHexPort_err (s : State) : (clearHexPort s).err = s.err := rfl
@[simp] theorem clearHexPort_eany (s : State) : (clearHexPort s).eany = s.eany := rfl
@[simp] theorem clearHexPort_lastop (s : State) : (clearHexPort s).lastop = s.lastop := rfl
@[simp] theorem clearHexPort_hexCnt (s : State) : (clearHexPort s).hexCnt = 0 := rfl
@[simp] theorem clearHexPort_hexBad (s : State) : (clearHexPort s).hexBad = false := rfl
@[simp] theorem clearHexPort_hexDig (s : State) : (clearHexPort s).hexDig = Vector.replicate 64 0 := rfl
@[simp] theorem clearHexPort_seed (s : State) : (clearHexPort s).seed = s.seed := rfl
@[simp] theorem clearHexPort_seedLen (s : State) : (clearHexPort s).seedLen = s.seedLen := rfl
@[simp] theorem clearHexPort_seedBad (s : State) : (clearHexPort s).seedBad = s.seedBad := rfl
@[simp] theorem clearHexPort_bus (s : State) : (clearHexPort s).bus = s.bus := rfl
@[simp] theorem clearHexPort_reads (s : State) : (clearHexPort s).reads = s.reads := rfl
@[simp] theorem clearHexPort_resets (s : State) : (clearHexPort s).resets = s.resets := rfl

/-! ### clearSeedPort -/

@[simp] theorem clearSeedPort_blk (s : State) : (clearSeedPort s).blk = s.blk := rfl
@[simp] theorem clearSeedPort_key (s : State) : (clearSeedPort s).key = s.key := rfl
@[simp] theorem clearSeedPort_w (s : State) : (clearSeedPort s).w = s.w := rfl
@[simp] theorem clearSeedPort_pt (s : State) : (clearSeedPort s).pt = s.pt := rfl
@[simp] theorem clearSeedPort_ptSize (s : State) : (clearSeedPort s).ptSize = s.ptSize := rfl
@[simp] theorem clearSeedPort_err (s : State) : (clearSeedPort s).err = s.err := rfl
@[simp] theorem clearSeedPort_eany (s : State) : (clearSeedPort s).eany = s.eany := rfl
@[simp] theorem clearSeedPort_lastop (s : State) : (clearSeedPort s).lastop = s.lastop := rfl
@[simp] theorem clearSeedPort_hexCnt (s : State) : (clearSeedPort s).hexCnt = s.hexCnt := rfl
@[simp] theorem clearSeedPort_hexBad (s : State) : (clearSeedPort s).hexBad = s.hexBad := rfl
@[simp] theorem clearSeedPort_hexDig (s : State) : (clearSeedPort s).hexDig = s.hexDig := rfl
@[simp] theorem clearSeedPort_seed (s : State) : (clearSeedPort s).seed = Vector.replicate 256 0 := rfl
@[simp] theorem clearSeedPort_seedLen (s : State) : (clearSeedPort s).seedLen = 0 := rfl
@[simp] theorem clearSeedPort_seedBad (s : State) : (clearSeedPort s).seedBad = false := rfl
@[simp] theorem clearSeedPort_bus (s : State) : (clearSeedPort s).bus = s.bus := rfl
@[simp] theorem clearSeedPort_reads (s : State) : (clearSeedPort s).reads = s.reads := rfl
@[simp] theorem clearSeedPort_resets (s : State) : (clearSeedPort s).resets = s.resets := rfl

/-! ### hexPush -/

@[simp] theorem hexPush_blk (v : Word) (s : State) : (hexPush v s).blk = s.blk := rfl
@[simp] theorem hexPush_key (v : Word) (s : State) : (hexPush v s).key = s.key := rfl
@[simp] theorem hexPush_w (v : Word) (s : State) : (hexPush v s).w = s.w := rfl
@[simp] theorem hexPush_pt (v : Word) (s : State) : (hexPush v s).pt = s.pt := rfl
@[simp] theorem hexPush_ptSize (v : Word) (s : State) : (hexPush v s).ptSize = s.ptSize := rfl
@[simp] theorem hexPush_err (v : Word) (s : State) : (hexPush v s).err = s.err := rfl
@[simp] theorem hexPush_eany (v : Word) (s : State) : (hexPush v s).eany = s.eany := rfl
@[simp] theorem hexPush_lastop (v : Word) (s : State) : (hexPush v s).lastop = s.lastop := rfl
@[simp] theorem hexPush_hexBad (v : Word) (s : State) : (hexPush v s).hexBad = (s.hexBad || !isHexDigit v) := rfl
@[simp] theorem hexPush_seed (v : Word) (s : State) : (hexPush v s).seed = s.seed := rfl
@[simp] theorem hexPush_seedLen (v : Word) (s : State) : (hexPush v s).seedLen = s.seedLen := rfl
@[simp] theorem hexPush_seedBad (v : Word) (s : State) : (hexPush v s).seedBad = s.seedBad := rfl
@[simp] theorem hexPush_bus (v : Word) (s : State) : (hexPush v s).bus = s.bus := rfl
@[simp] theorem hexPush_reads (v : Word) (s : State) : (hexPush v s).reads = s.reads := rfl
@[simp] theorem hexPush_resets (v : Word) (s : State) : (hexPush v s).resets = s.resets := rfl

/-! ### seedPush -/

@[simp] theorem seedPush_blk (v : Word) (s : State) : (seedPush v s).blk = s.blk := by unfold seedPush; split <;> rfl
@[simp] theorem seedPush_key (v : Word) (s : State) : (seedPush v s).key = s.key := by unfold seedPush; split <;> rfl
@[simp] theorem seedPush_w (v : Word) (s : State) : (seedPush v s).w = s.w := by unfold seedPush; split <;> rfl
@[simp] theorem seedPush_pt (v : Word) (s : State) : (seedPush v s).pt = s.pt := by unfold seedPush; split <;> rfl
@[simp] theorem seedPush_ptSize (v : Word) (s : State) : (seedPush v s).ptSize = s.ptSize := by unfold seedPush; split <;> rfl
@[simp] theorem seedPush_err (v : Word) (s : State) : (seedPush v s).err = s.err := by unfold seedPush; split <;> rfl
@[simp] theorem seedPush_eany (v : Word) (s : State) : (seedPush v s).eany = s.eany := by unfold seedPush; split <;> rfl
@[simp] theorem seedPush_lastop (v : Word) (s : State) : (seedPush v s).lastop = s.lastop := by unfold seedPush; split <;> rfl
@[simp] theorem seedPush_hexCnt (v : Word) (s : State) : (seedPush v s).hexCnt = s.hexCnt := by unfold seedPush; split <;> rfl
@[simp] theorem seedPush_hexBad (v : Word) (s : State) : (seedPush v s).hexBad = s.hexBad := by unfold seedPush; split <;> rfl
@[simp] theorem seedPush_hexDig (v : Word) (s : State) : (seedPush v s).hexDig = s.hexDig := by unfold seedPush; split <;> rfl
@[simp] theorem seedPush_bus (v : Word) (s : State) : (seedPush v s).bus = s.bus := by unfold seedPush; split <;> rfl
@[simp] theorem seedPush_reads (v : Word) (s : State) : (seedPush v s).reads = s.reads := by unfold seedPush; split <;> rfl
@[simp] theorem seedPush_resets (v : Word) (s : State) : (seedPush v s).resets = s.resets := by unfold seedPush; split <;> rfl

/-! ### afterReset -/

@[simp] theorem afterReset_blk (r : Nat) (bus : List BusEvent) (reads : List Word) : (State.afterReset r bus reads).blk = 0 := rfl
@[simp] theorem afterReset_key (r : Nat) (bus : List BusEvent) (reads : List Word) : (State.afterReset r bus reads).key = Vector.replicate 8 0 := rfl
@[simp] theorem afterReset_w (r : Nat) (bus : List BusEvent) (reads : List Word) : (State.afterReset r bus reads).w = 0 := rfl
@[simp] theorem afterReset_pt (r : Nat) (bus : List BusEvent) (reads : List Word) : (State.afterReset r bus reads).pt = Vector.ofFn fun k => Config.ptAtReset r k.val := rfl
@[simp] theorem afterReset_ptSize (r : Nat) (bus : List BusEvent) (reads : List Word) : (State.afterReset r bus reads).ptSize = 0 := rfl
@[simp] theorem afterReset_err (r : Nat) (bus : List BusEvent) (reads : List Word) : (State.afterReset r bus reads).err = 0 := rfl
@[simp] theorem afterReset_eany (r : Nat) (bus : List BusEvent) (reads : List Word) : (State.afterReset r bus reads).eany = false := rfl
@[simp] theorem afterReset_lastop (r : Nat) (bus : List BusEvent) (reads : List Word) : (State.afterReset r bus reads).lastop = 0 := rfl
@[simp] theorem afterReset_hexCnt (r : Nat) (bus : List BusEvent) (reads : List Word) : (State.afterReset r bus reads).hexCnt = 0 := rfl
@[simp] theorem afterReset_hexBad (r : Nat) (bus : List BusEvent) (reads : List Word) : (State.afterReset r bus reads).hexBad = false := rfl
@[simp] theorem afterReset_hexDig (r : Nat) (bus : List BusEvent) (reads : List Word) : (State.afterReset r bus reads).hexDig = Vector.replicate 64 0 := rfl
@[simp] theorem afterReset_seed (r : Nat) (bus : List BusEvent) (reads : List Word) : (State.afterReset r bus reads).seed = Vector.replicate 256 0 := rfl
@[simp] theorem afterReset_seedLen (r : Nat) (bus : List BusEvent) (reads : List Word) : (State.afterReset r bus reads).seedLen = 0 := rfl
@[simp] theorem afterReset_seedBad (r : Nat) (bus : List BusEvent) (reads : List Word) : (State.afterReset r bus reads).seedBad = false := rfl
@[simp] theorem afterReset_bus (r : Nat) (bus : List BusEvent) (reads : List Word) : (State.afterReset r bus reads).bus = bus := rfl
@[simp] theorem afterReset_reads (r : Nat) (bus : List BusEvent) (reads : List Word) : (State.afterReset r bus reads).reads = reads := rfl
@[simp] theorem afterReset_resets (r : Nat) (bus : List BusEvent) (reads : List Word) : (State.afterReset r bus reads).resets = r := rfl

/-! ### withFetchWord is a write to CMD put before the accesses still to come: see Laws/Step.lean. -/

end Sys2Proof.Machine
end

