-- ==== Sys2Proof/Laws/Ports.lean ====
section
/-! SUPPORT. Laws of the hex port (spec/41_codec.md R110 to R112) and the seed port (spec/43_key_derivation.md R150). -/

namespace Sys2Proof.Machine

/-! ### HexCheck: each answer, and when it is given -/

theorem hexCheck_format_iff (m : Nat) (s : State) :
    hexCheck m s = .format ↔ s.hexBad = true ∨ s.hexCnt = 0 := by
  unfold hexCheck
  split
  · simp_all
  · split <;> simp_all

theorem hexCheck_size_iff (m : Nat) (s : State) :
    hexCheck m s = .size ↔ s.hexBad = false ∧ s.hexCnt ≠ 0 ∧ s.hexCnt.toNat ≠ m := by
  unfold hexCheck
  split
  · next h => rcases h with h | h <;> simp [h]
  · next h =>
    rw [not_or, Bool.not_eq_true] at h
    split <;> simp_all

theorem hexCheck_ok_iff (m : Nat) (s : State) :
    hexCheck m s = .ok ↔ s.hexBad = false ∧ s.hexCnt ≠ 0 ∧ s.hexCnt.toNat = m := by
  unfold hexCheck
  split
  · next h => rcases h with h | h <;> simp [h]
  · next h =>
    rw [not_or, Bool.not_eq_true] at h
    split <;> simp_all

/-- Digit k of HexValue(64) is HEXDIG[k] (R112). -/
theorem blockDigit_hexValue (s : State) (k : Fin 64) : blockDigit (hexValue 64 s) k = s.hexDig[k] := by
  have := hexValue_digit (s.hexDig.toList.take 64) 64 (by simp) k.val k.isLt
  simpa [blockDigit, hexValue] using this

/-- Digit j of HexValue(8) is HEXDIG[j] (R112). -/
theorem wordDigit_hexValue (s : State) (j : Fin 8) : wordDigit (hexValue 8 s) j = s.hexDig[j.val] := by
  have := hexValue_digit (s.hexDig.toList.take 8) 8 (by simp) j.val j.isLt
  simpa [wordDigit, hexValue] using this

/-! ### Pushing a character -/

theorem hexPush_hexCnt (v : Word) (s : State) :
    (hexPush v s).hexCnt.toNat = min (s.hexCnt.toNat + 1) 0xFFFF := by
  have := s.hexCnt.isLt
  unfold hexPush
  simp only
  split
  · next h => rw [BitVec.toNat_add]; simp; omega
  · next h => omega

theorem hexPush_hexDig (v : Word) (s : State) (k : Nat) (hk : k < 64) :
    (hexPush v s).hexDig[k] = if isHexDigit v = true ∧ s.hexCnt.toNat = k then digitValue v else s.hexDig[k] := by
  unfold hexPush
  simp only
  by_cases hv : isHexDigit v = true
  · by_cases hc : s.hexCnt.toNat < 64
    · simp [hv, hc, Vector.getElem_setIfInBounds]
    · simp [hv, hc]; omega
  · simp [hv]

/-! ### Pushing a code point -/

theorem seedPush_refused {v : Word} {s : State} (h : isScalar v = false ∨ s.seedLen.toNat = 256) :
    seedPush v s = { s with seedBad := true } := by
  simp only [seedPush, h, if_true]

theorem seedPush_taken {v : Word} {s : State} (hv : isScalar v = true) (hl : s.seedLen.toNat ≠ 256) :
    seedPush v s = { s with seed := s.seed.setIfInBounds s.seedLen.toNat (v.setWidth 21), seedLen := s.seedLen + 1 } := by
  simp [seedPush, hv, hl]

end Sys2Proof.Machine
end

