-- ==== Sys2Proof/Laws/Table.lean ====
section
/-! SUPPORT. Laws of permutation tables: IsPerm, Invert, ApplyPerm, the stored table, the shuffle (Machine/Ops.lean; spec/00_scope.md R16, spec/42_permutation.md R131 to R140). -/

namespace Sys2Proof.Machine

/-! ### IsPerm -/

theorem distinct_iff_nodup (T : List Byte) : distinct T = true ↔ T.Nodup := by
  induction T with
  | nil => simp [distinct]
  | cons x xs ih =>
    simp only [distinct, Bool.and_eq_true, ih, List.nodup_cons, List.all_eq_true, bne_iff_ne, ne_eq]
    constructor
    · rintro ⟨h, hx⟩
      exact ⟨fun hmem => h x hmem rfl, hx⟩
    · rintro ⟨h, hx⟩
      exact ⟨fun y hy hxy => h (BitVec.eq_of_toNat_eq hxy ▸ hy), hx⟩

theorem isPerm_iff (T : List Byte) (n : Nat) :
    isPerm T n = true ↔ (∀ x ∈ T, x.toNat < n) ∧ T.Nodup := by
  simp [isPerm, distinct_iff_nodup]

/-- A permutation of 0..n-1 with n entries holds every number below n. -/
theorem isPerm_surjective {T : List Byte} {n : Nat} (hlen : T.length = n) (h : isPerm T n = true)
    (j : Nat) (hj : j < n) : ∃ (k : Nat) (hk : k < T.length), T[k].toNat = j := by
  obtain ⟨hlt, hnd⟩ := (isPerm_iff T n).mp h
  have hndN : (T.map BitVec.toNat).Nodup := hnd.map fun _ _ => BitVec.eq_of_toNat_eq
  have hsub : T.map BitVec.toNat ⊆ List.range n := by
    intro x hx
    obtain ⟨y, hy, rfl⟩ := List.mem_map.mp hx
    exact List.mem_range.mpr (hlt y hy)
  have hperm : (T.map BitVec.toNat).Perm (List.range n) :=
    (List.subperm_of_subset hndN hsub).perm_of_length_le (by simp [hlen])
  have hmem : j ∈ T.map BitVec.toNat := hperm.symm.subset (List.mem_range.mpr hj)
  obtain ⟨k, hk, hkj⟩ := List.getElem_of_mem hmem
  exact ⟨k, by simpa using hk, by simpa using hkj⟩

/-! ### Invert -/

@[simp] theorem invertTable_length (T : List Byte) : (invertTable T).length = T.length := by
  simp [invertTable]

theorem getElem_invertTable (T : List Byte) (j : Nat) (hj : j < (invertTable T).length) :
    (invertTable T)[j] = BitVec.ofNat 8 (invertEntry T j) := by
  simp [invertTable]

/-- `Invert(T)[T[k]] = k`, before the index is stored in 8 bits. -/
theorem invertEntry_getElem {T : List Byte} (hnd : T.Nodup) (k : Nat) (hk : k < T.length) :
    invertEntry T T[k].toNat = k := by
  unfold invertEntry
  rw [List.findIdx_eq hk]
  refine ⟨by simp, fun j hj => ?_⟩
  have hjk : T[j] ≠ T[k] := fun h => (Nat.ne_of_lt hj) ((List.Nodup.getElem_inj_iff hnd).mp h)
  simpa using fun h => hjk (BitVec.eq_of_toNat_eq h)

section

variable {T : List Byte} {n : Nat} (hlen : T.length = n) (hn : n ≤ 256) (h : isPerm T n = true)
include hlen hn h

omit hn in
theorem invertEntry_spec (j : Nat) (hj : j < n) :
    ∃ hk : invertEntry T j < T.length, T[invertEntry T j].toNat = j := by
  obtain ⟨k, hk, rfl⟩ := isPerm_surjective hlen h j hj
  rw [invertEntry_getElem ((isPerm_iff T n).mp h).2 k hk]
  exact ⟨hk, rfl⟩

theorem toNat_getElem_invertTable (j : Nat) (hj : j < (invertTable T).length) :
    (invertTable T)[j].toNat = invertEntry T j := by
  obtain ⟨hk, -⟩ := invertEntry_spec hlen h j (by simpa [hlen] using hj)
  rw [getElem_invertTable, BitVec.toNat_ofNat, Nat.mod_eq_of_lt (by omega)]

/-- `Invert(T)[T[k]] = k` (R139). -/
theorem invertTable_at (k : Nat) (hk : k < T.length) (hj : T[k].toNat < (invertTable T).length) :
    (invertTable T)[T[k].toNat].toNat = k := by
  rw [toNat_getElem_invertTable hlen hn h, invertEntry_getElem ((isPerm_iff T n).mp h).2 k hk]

/-- The inverse of a permutation is a permutation of the same size (R139). -/
theorem isPerm_invertTable : isPerm (invertTable T) n = true := by
  rw [isPerm_iff]
  constructor
  · intro x hx
    obtain ⟨j, hj, rfl⟩ := List.getElem_of_mem hx
    obtain ⟨hk, -⟩ := invertEntry_spec hlen h j (by simpa [hlen] using hj)
    rw [toNat_getElem_invertTable hlen hn h]
    omega
  · rw [List.nodup_iff_injective_getElem]
    intro a b hab
    have ha := toNat_getElem_invertTable hlen hn h a.val a.isLt
    have hb := toNat_getElem_invertTable hlen hn h b.val b.isLt
    obtain ⟨_, hja⟩ := invertEntry_spec hlen h a.val (by simpa [hlen] using a.isLt)
    obtain ⟨_, hjb⟩ := invertEntry_spec hlen h b.val (by simpa [hlen] using b.isLt)
    have hidx : invertEntry T a.val = invertEntry T b.val := by
      rw [← ha, ← hb]; exact congrArg BitVec.toNat hab
    apply Fin.ext
    rw [← hja, ← hjb]
    simp only [hidx]

/-- `Invert(Invert(T, n), n) = T` (R139). -/
theorem invertTable_invertTable : invertTable (invertTable T) = T := by
  apply List.ext_getElem
  · simp
  · intro k hk hk'
    have hTk : T[k].toNat < (invertTable T).length := by
      simpa [hlen] using ((isPerm_iff T n).mp h).1 _ (List.getElem_mem hk')
    have hU := isPerm_invertTable hlen hn h
    have hUlen : (invertTable T).length = n := by simp [hlen]
    have hk2 : (invertTable T)[T[k].toNat].toNat < (invertTable (invertTable T)).length := by
      rw [invertTable_at hlen hn h k hk' hTk]; exact hk
    have := invertTable_at hUlen hn hU T[k].toNat hTk hk2
    apply BitVec.eq_of_toNat_eq
    rw [← this]
    congr 2
    exact (invertTable_at hlen hn h k hk' hTk).symm

end

/-! ### ApplyPerm -/

/-- Output position i is input position T[i] (R135). -/
theorem pos_applyPerm (B : Block) (T : List Byte) (hlen : T.length = 256) (i : Nat) (hi : i < 256) :
    pos (applyPerm B T) i = pos B T[i].toNat := by
  unfold applyPerm
  rw [pos_blockOfPositions _ (by simp [hlen]) i hi]
  simp

/-- `ApplyPerm(ApplyPerm(B, T), Invert(T, 256)) = B` (R137). -/
theorem applyPerm_invertTable (B : Block) (T : List Byte) (hlen : T.length = 256) (h : isPerm T 256 = true) :
    applyPerm (applyPerm B T) (invertTable T) = B := by
  apply block_ext_pos
  intro i hi
  have hlen' : (invertTable T).length = 256 := by simp [hlen]
  obtain ⟨hk, hki⟩ := invertEntry_spec hlen h i hi
  have hu := toNat_getElem_invertTable hlen le_rfl h i (by simp [hlen, hi])
  rw [pos_applyPerm _ _ hlen' i hi, pos_applyPerm _ _ hlen _ (by omega)]
  congr 1
  simp only [hu, hki]

/-- `ApplyPerm(ApplyPerm(B, Invert(T, 256)), T) = B` (R137). -/
theorem applyPerm_of_invertTable (B : Block) (T : List Byte) (hlen : T.length = 256) (h : isPerm T 256 = true) :
    applyPerm (applyPerm B (invertTable T)) T = B := by
  have hU := isPerm_invertTable hlen le_rfl h
  have := applyPerm_invertTable B (invertTable T) (by simp [hlen]) hU
  rwa [invertTable_invertTable hlen le_rfl h] at this

/-! ### The current table, the stored table, the shuffle -/

theorem currentTable_length (s : State) (h : s.ptSize.toNat ≤ 256) :
    (currentTable s).length = s.ptSize.toNat := by
  simp [currentTable, h]

theorem getElem_currentTable (s : State) (k : Nat) (hk : k < (currentTable s).length) (hk' : k < 256) :
    (currentTable s)[k] = s.pt[k] := by
  simp [currentTable]

theorem getElem_storeTable (T : List Byte) (pt : Vector Byte 256) (k : Nat) (hk : k < 256) :
    (storeTable T pt)[k] = if h : k < T.length then T[k] else pt[k] := by
  by_cases h : k < T.length <;> simp [storeTable, h]

/-- After a table of PT_SIZE entries is stored, it is the current table. -/
theorem currentTable_storeTable (T : List Byte) (s : State) (n : BitVec 9) (hn : n.toNat ≤ 256)
    (hlen : T.length = n.toNat) :
    ((storeTable T s.pt).toList.take n.toNat) = T := by
  apply List.ext_getElem
  · simp [hlen, hn]
  · intro k hk hk'
    have hk256 : k < 256 := by omega
    have := getElem_storeTable T s.pt k hk256
    simpa [hk'] using this

@[simp] theorem shuffleTable_length (s n : Nat) : (shuffleTable s n).length = n := by
  simp [shuffleTable]

/-- Property (b) of R131: the shuffle's table is a permutation of 0..n-1. -/
theorem isPerm_shuffleTable (s n : Nat) (hn : n ≤ 256) : isPerm (shuffleTable s n) n = true := by
  have hval : ∀ k : Fin n, (BitVec.ofNat 8 (Config.permShuffle s n k).val).toNat = (Config.permShuffle s n k).val := by
    intro k
    rw [BitVec.toNat_ofNat, Nat.mod_eq_of_lt (by have := (Config.permShuffle s n k).isLt; omega)]
  rw [isPerm_iff]
  constructor
  · intro x hx
    obtain ⟨k, rfl⟩ := (List.mem_ofFn' _ _).mp hx
    rw [hval]
    exact (Config.permShuffle s n k).isLt
  · rw [shuffleTable, List.nodup_ofFn]
    intro a b hab
    have := congrArg BitVec.toNat hab
    simp only [hval] at this
    exact (Config.permShuffle s n).injective (Fin.ext this)

/-! ### TableCheck -/

theorem tableCheck_length {s : State} (h : s.ptSize.toNat ≠ 256) : tableCheck s = .length := by
  simp [tableCheck, h]

theorem tableCheck_notPerm {s : State} (h : s.ptSize.toNat = 256) (hp : isPerm (currentTable s) 256 = false) :
    tableCheck s = .notPerm := by
  simp [tableCheck, h, hp]

theorem tableCheck_ok {s : State} (h : s.ptSize.toNat = 256) (hp : isPerm (currentTable s) 256 = true) :
    tableCheck s = .ok := by
  simp [tableCheck, h, hp]

end Sys2Proof.Machine
end

