-- ==== Sys2Proof/Laws/Step.lean ====
section
/-! SUPPORT. What a step and a block command can do, each said once (Machine/Bus.lean, Machine/Step.lean, Machine/Ops.lean). -/

namespace Sys2Proof.Machine

/-! ### The bus -/

theorem step_idle {s : State} (h : s.bus = []) : step s = .next s := by
  simp [step, stepBus, h]

theorem step_cons {s : State} {e : BusEvent} {rest : List BusEvent} (h : s.bus = e :: rest) :
    step s = perform e { s with bus := rest } := by
  simp [step, stepBus, h]

theorem accessRefusal_none_iff (width off : Nat) :
    accessRefusal width off = none ↔ width = 4 ∧ off % 4 = 0 ∧ off < 0x800 := by
  unfold accessRefusal
  split_ifs <;> simp <;> omega

theorem busRead_legal {width off : Nat} (h : width = 4 ∧ off % 4 = 0 ∧ off < 0x800) (s : State) :
    busRead width off s = .next { s with reads := readReg (regAt off) s :: s.reads } := by
  simp only [busRead, (accessRefusal_none_iff width off).mpr h]

theorem busWrite_legal {width off : Nat} (h : width = 4 ∧ off % 4 = 0 ∧ off < 0x800) (v : Word) (s : State) :
    busWrite width off v s = if off = 0x000 then runCommand v s else .next (writeReg (regAt off) v s) := by
  simp only [busWrite, (accessRefusal_none_iff width off).mpr h]

theorem busWrite_cmd (v : Word) (s : State) : busWrite 4 0x000 v s = runCommand v s := by
  rw [busWrite_legal (by decide)]
  rfl

theorem runCommand_legal {c : Word} {i : Instr} (h : decode c = .ok i) (s : State) : runCommand c s = exec i s := by
  simp only [runCommand, h]

theorem runCommand_illegal {c : Word} {e : DecodeError} (h : decode c = .error e) (s : State) :
    runCommand c s = illegalWord c s := by
  simp only [runCommand, h]

/-! ### Events one after the other -/

theorem performAll_cons_next {e : BusEvent} {s t : State} (h : perform e s = .next t) (es : List BusEvent) :
    performAll (e :: es) s = performAll es t := by
  simp only [performAll, h]

theorem performAll_append_next {es : List BusEvent} {s t : State} (h : performAll es s = .next t) (fs : List BusEvent) :
    performAll (es ++ fs) s = performAll fs t := by
  induction es generalizing s with
  | nil =>
    simp only [performAll, Host.Outcome.next.injEq] at h
    simp [h]
  | cons e es ih =>
    rw [List.cons_append]
    cases hp : perform e s with
    | next u =>
      rw [performAll_cons_next hp] at h ⊢
      exact ih h
    | fault f => cases f
    | refused r => simp [performAll, hp] at h

/-! ### A block command's three ends -/

theorem blockCommand_ok {i : Instr} {f : List Byte → Block → Block} {s : State} (h : s.ptSize.toNat = 256)
    (hp : isPerm (currentTable s) 256 = true) :
    blockCommand i f s = finish i { s with blk := f (currentTable s) s.blk } := by
  simp only [blockCommand, tableCheck_ok h hp]

theorem blockCommand_length {i : Instr} {f : List Byte → Block → Block} {s : State} (h : s.ptSize.toNat ≠ 256) :
    blockCommand i f s = raiseError i .lengthMismatch s := by
  simp only [blockCommand, tableCheck_length h]

theorem blockCommand_notPerm {i : Instr} {f : List Byte → Block → Block} {s : State} (h : s.ptSize.toNat = 256)
    (hp : isPerm (currentTable s) 256 = false) :
    blockCommand i f s = raiseError i .notPermutation s := by
  simp only [blockCommand, tableCheck_notPerm h hp]

/-- A block command answers one of three next states, and nothing else. -/
theorem blockCommand_cases (i : Instr) (f : List Byte → Block → Block) (s : State) :
    blockCommand i f s = raiseError i .lengthMismatch s ∨
      blockCommand i f s = raiseError i .notPermutation s ∨
      blockCommand i f s = finish i { s with blk := f (currentTable s) s.blk } := by
  unfold blockCommand
  split <;> simp

/-! ### The window's map -/

/-- The map sends the offset of every named register to that register (R62). -/
theorem regAt_regOffset (r : Reg) (off : Nat) (h : regOffset r = some off) : regAt off = r := by
  cases r <;> simp only [regOffset, Option.some.injEq, reduceCtorEq] at h <;> subst h
  case blkW i => revert i; decide
  case key i => revert i; decide
  case blkHex k => revert k; decide
  case keyHex k => revert k; decide
  case pt k =>
    have hk := k.isLt
    unfold regAt
    simp only [show (0x400 + 4 * k.val - 0x400) / 4 = k.val by omega]
    repeat rw [if_neg (by omega)]
    simp
  all_goals rfl

/-- The reserved offsets of R63 name no register. -/
theorem regAt_reserved {off : Nat} (h : (0x01C ≤ off ∧ off < 0x040) ∨ (0x088 ≤ off ∧ off < 0x100) ∨ (0x300 ≤ off ∧ off < 0x400)) :
    regAt off = .reserved := by
  unfold regAt
  rcases h with h | h | h <;>
    · repeat rw [if_neg (by omega)]
      rw [if_pos (by omega)]

/-- The map sends a word offset of the window to the register that has it, or to a reserved word (R62, R63). -/
theorem regOffset_regAt {off : Nat} (h : off % 4 = 0 ∧ off < 0x800) (hr : regAt off ≠ .reserved) :
    regOffset (regAt off) = some off := by
  have table : ∀ k, k < 512 → regAt (4 * k) ≠ .reserved → regOffset (regAt (4 * k)) = some (4 * k) := by
    decide +kernel
  have := table (off / 4) (by omega)
  rw [show 4 * (off / 4) = off by omega] at this
  exact this hr

/-- The offsets 0x100 to 0x2FC are the hex views (R62), where a write is ignored (R64). -/
theorem writeReg_hexView {off : Nat} (h : 0x100 ≤ off ∧ off < 0x300) (v : Word) (s : State) :
    writeReg (regAt off) v s = s := by
  unfold regAt
  rcases Nat.lt_or_ge off 0x200 with h2 | h2 <;>
    · repeat rw [if_neg (by omega)]
      rw [if_pos (by omega)]
      rfl

end Sys2Proof.Machine
end

