-- ==== Sys2Proof/Laws/Commands.lean ====
section
/-! SUPPORT. What any command can do, said once for all 18: how it may end, which ports it may touch, and that it neither reads nor writes the host's list of events; the same of the bus, and what a sequence of pushes leaves. -/

namespace Sys2Proof.Machine

/-! ### A block command -/

theorem tableCheck_withBus (b : List BusEvent) (s : State) : tableCheck { s with bus := b } = tableCheck s := rfl

theorem blockCommand_withBus {i : Instr} {f : List Byte → Block → Block} {s t : State} (b : List BusEvent)
    (h : blockCommand i f s = .next t) : blockCommand i f { s with bus := b } = .next { t with bus := b } := by
  unfold blockCommand at h ⊢
  rw [tableCheck_withBus]
  cases hc : tableCheck s <;> rw [hc] at h <;> simp only [raiseError, finish, Host.Outcome.next.injEq] at h <;>
    subst h <;> rfl

/-- A block command writes BLK and STATUS and nothing else. -/
theorem blockCommand_frame {i : Instr} {f : List Byte → Block → Block} {s t : State} (h : blockCommand i f s = .next t) :
    t = { s with blk := t.blk, err := t.err, eany := t.eany, lastop := opcode i } := by
  rcases blockCommand_cases i f s with h' | h' | h' <;> rw [h'] at h <;>
    simp only [raiseError, finish, Host.Outcome.next.injEq] at h <;> subst h <;> rfl

/-! ### Any command and the host's list -/

/-- The host's list of events is no operand of a command: with another list it does the same. -/
theorem exec_withBus {i : Instr} {s t : State} (b : List BusEvent) (h : exec i s = .next t) :
    exec i { s with bus := b } = .next { t with bus := b } := by
  cases i
  case enc => exact blockCommand_withBus (i := .enc) b h
  case dec => exact blockCommand_withBus (i := .dec) b h
  case perm => exact blockCommand_withBus (i := .perm) (f := fun T B => applyPerm B T) b h
  case invPerm => exact blockCommand_withBus (i := .invPerm) (f := fun T B => applyPerm B (invertTable T)) b h
  case ldblk =>
    simp only [exec, execLdblk] at h ⊢
    rw [show hexCheck 64 { s with bus := b } = hexCheck 64 s from rfl]
    cases hc : hexCheck 64 s <;> simp only [hc] at h ⊢ <;> simp only [raiseError, finish, Host.Outcome.next.injEq] at h <;>
      subst h <;> rfl
  case ldkey k =>
    simp only [exec, execLdkey] at h ⊢
    rw [show hexCheck 8 { s with bus := b } = hexCheck 8 s from rfl]
    cases hc : hexCheck 8 s <;> simp only [hc] at h ⊢ <;> simp only [raiseError, finish, Host.Outcome.next.injEq] at h <;>
      subst h <;> rfl
  case deriveKey =>
    simp only [exec, execDeriveKey] at h ⊢
    by_cases hb : s.seedBad = true
    · rw [if_pos hb] at h ⊢; simp only [raiseError, Host.Outcome.next.injEq] at h; subst h; rfl
    · rw [if_neg hb] at h ⊢; simp only [finish, Host.Outcome.next.injEq] at h; subst h; rfl
  case derivePerm n =>
    simp only [exec, execDerivePerm] at h ⊢
    by_cases hn : n.toNat > 256
    · rw [if_pos hn] at h ⊢; simp only [raiseError, Host.Outcome.next.injEq] at h; subst h; rfl
    · rw [if_neg hn] at h ⊢
      by_cases hb : s.seedBad = true
      · rw [if_pos hb] at h ⊢; simp only [raiseError, Host.Outcome.next.injEq] at h; subst h; rfl
      · rw [if_neg hb] at h ⊢; simp only [finish, Host.Outcome.next.injEq] at h; subst h; rfl
  case invert =>
    simp only [exec, execInvert] at h ⊢
    rw [show currentTable { s with bus := b } = currentTable s from rfl]
    by_cases hp : isPerm (currentTable s) s.ptSize.toNat = true
    · rw [if_pos hp] at h ⊢; simp only [finish, Host.Outcome.next.injEq] at h; subst h; rfl
    · rw [if_neg hp] at h ⊢; simp only [raiseError, Host.Outcome.next.injEq] at h; subst h; rfl
  all_goals
    simp only [exec, execNop, execKmix, execExpand, execSubst, execRsubst, execRexpand, execClrHex, execClrSeed, execClrErr,
      finish, Host.Outcome.next.injEq] at h
    subst h
    rfl

/-- A command never touches the model's own fields. -/
theorem exec_own {i : Instr} {s t : State} (h : exec i s = .next t) :
    t.bus = s.bus ∧ t.reads = s.reads ∧ t.resets = s.resets := by
  cases i
  case enc => rw [blockCommand_frame (i := .enc) h]; exact ⟨rfl, rfl, rfl⟩
  case dec => rw [blockCommand_frame (i := .dec) h]; exact ⟨rfl, rfl, rfl⟩
  case perm => rw [blockCommand_frame (i := .perm) (f := fun T B => applyPerm B T) h]; exact ⟨rfl, rfl, rfl⟩
  case invPerm => rw [blockCommand_frame (i := .invPerm) (f := fun T B => applyPerm B (invertTable T)) h]; exact ⟨rfl, rfl, rfl⟩
  case ldblk =>
    simp only [exec, execLdblk] at h
    split at h <;> simp only [raiseError, finish, Host.Outcome.next.injEq] at h <;> subst h <;> exact ⟨rfl, rfl, rfl⟩
  case ldkey =>
    simp only [exec, execLdkey] at h
    split at h <;> simp only [raiseError, finish, Host.Outcome.next.injEq] at h <;> subst h <;> exact ⟨rfl, rfl, rfl⟩
  case deriveKey =>
    simp only [exec, execDeriveKey] at h
    split at h <;> simp only [raiseError, finish, Host.Outcome.next.injEq] at h <;> subst h <;> exact ⟨rfl, rfl, rfl⟩
  case derivePerm =>
    simp only [exec, execDerivePerm] at h
    split at h
    · simp only [raiseError, Host.Outcome.next.injEq] at h; subst h; exact ⟨rfl, rfl, rfl⟩
    · split at h <;> simp only [raiseError, finish, Host.Outcome.next.injEq] at h <;> subst h <;> exact ⟨rfl, rfl, rfl⟩
  case invert =>
    simp only [exec, execInvert] at h
    split at h <;> simp only [raiseError, finish, Host.Outcome.next.injEq] at h <;> subst h <;> exact ⟨rfl, rfl, rfl⟩
  all_goals
    simp only [exec, execNop, execKmix, execExpand, execSubst, execRsubst, execRexpand, execClrHex, execClrSeed, execClrErr,
      finish, Host.Outcome.next.injEq] at h
    subst h
    exact ⟨rfl, rfl, rfl⟩

/-! ### The window and the host's list -/

theorem writeReg_withBus (r : Reg) (v : Word) (b : List BusEvent) (s : State) :
    writeReg r v { s with bus := b } = { writeReg r v s with bus := b } := by
  cases r <;> simp only [writeReg]
  case seedPush => unfold seedPush; simp only; split <;> rfl
  case ptSize => split <;> rfl
  all_goals rfl

/-- A register write other than to CMD touches neither STATUS nor the model's own fields (R62). -/
theorem writeReg_keeps (r : Reg) (v : Word) (s : State) :
    (writeReg r v s).err = s.err ∧ (writeReg r v s).eany = s.eany ∧ (writeReg r v s).lastop = s.lastop ∧
      (writeReg r v s).bus = s.bus ∧ (writeReg r v s).reads = s.reads ∧ (writeReg r v s).resets = s.resets := by
  cases r <;> simp only [writeReg]
  case seedPush => simp
  case hexPush => simp
  case ptSize => split <;> simp
  all_goals simp

/-! ### Sequences of pushes -/

/-- Pushing characters to HEX_PUSH one after the other. -/
theorem performAll_hexPushes (ws : List Word) (s : State) :
    performAll (ws.map fun w => .write 4 0x008 w) s = .next (ws.foldl (fun u w => hexPush w u) s) := by
  induction ws generalizing s with
  | nil => rfl
  | cons w ws ih =>
    rw [List.map_cons, performAll_cons_next (t := hexPush w s), ih]
    · rfl
    · simp only [perform]; rw [busWrite_legal (by decide)]; rfl

/-- HEXCNT counts the pushes and stops at 0xFFFF. -/
theorem hexPushes_hexCnt (ws : List Word) (s : State) :
    (ws.foldl (fun u w => hexPush w u) s).hexCnt.toNat = min (s.hexCnt.toNat + ws.length) 0xFFFF := by
  induction ws generalizing s with
  | nil => have := s.hexCnt.isLt; simp; omega
  | cons w ws ih => rw [List.foldl_cons, ih, hexPush_hexCnt, List.length_cons]; omega

/-- HEXBAD is sticky over a sequence of pushes. -/
theorem hexPushes_hexBad (ws : List Word) (s : State) :
    (ws.foldl (fun u w => hexPush w u) s).hexBad = (s.hexBad || ws.any fun w => !isHexDigit w) := by
  induction ws generalizing s with
  | nil => simp
  | cons w ws ih => rw [List.foldl_cons, ih]; simp [Bool.or_assoc]

/-- Pushes change the hex port and nothing else. -/
theorem hexPushes_frame (ws : List Word) (s : State) :
    ws.foldl (fun u w => hexPush w u) s = { s with
      hexCnt := (ws.foldl (fun u w => hexPush w u) s).hexCnt
      hexBad := (ws.foldl (fun u w => hexPush w u) s).hexBad
      hexDig := (ws.foldl (fun u w => hexPush w u) s).hexDig } := by
  induction ws generalizing s with
  | nil => rfl
  | cons w ws ih => rw [List.foldl_cons, ih (hexPush w s)]; rfl

/-- Pushing code points to SEED_PUSH one after the other. -/
theorem performAll_seedPushes (ws : List Word) (s : State) :
    performAll (ws.map fun w => .write 4 0x010 w) s = .next (ws.foldl (fun u w => seedPush w u) s) := by
  induction ws generalizing s with
  | nil => rfl
  | cons w ws ih =>
    rw [List.map_cons, performAll_cons_next (t := seedPush w s), ih]
    · rfl
    · simp only [perform]; rw [busWrite_legal (by decide)]; rfl

/-- Pushes change the seed port and nothing else. -/
theorem seedPushes_frame (ws : List Word) (s : State) :
    ws.foldl (fun u w => seedPush w u) s = { s with
      seed := (ws.foldl (fun u w => seedPush w u) s).seed
      seedLen := (ws.foldl (fun u w => seedPush w u) s).seedLen
      seedBad := (ws.foldl (fun u w => seedPush w u) s).seedBad } := by
  induction ws generalizing s with
  | nil => rfl
  | cons w ws ih => rw [List.foldl_cons, ih (seedPush w s)]; simp

end Sys2Proof.Machine
end

