-- ==== Sys2Proof/Laws/Encoding.lean ====
section
/-! SUPPORT. The fields of a command word put together and taken apart (Decode.lean): one lemma per field and format, and each format's word rebuilt from its fields. -/

namespace Sys2Proof

/-- The bits of a format S or P word: the opcode below bit 8, the operand above. -/
theorem getLsbD_orShift (op : BitVec 8) (v : Word) (j : Nat) (hj : j < 32) :
    (op.setWidth 32 ||| v <<< 8).getLsbD j = if j < 8 then op.getLsbD j else v.getLsbD (j - 8) := by
  by_cases h : j < 8
  · simp [h, hj]
  · have hv : v.getLsbD (j - 8) = v[j - 8]'(by omega) := BitVec.getLsbD_eq_getElem (by omega)
    simp [h, hj, hv, BitVec.getLsbD_of_ge op j (by omega)]

theorem getLsbD_indexWord (i : Fin 8) (j : Nat) (hj : 3 ≤ j) : (BitVec.ofNat 32 i.val).getLsbD j = false := by
  have h : i.val < 2 ^ j := calc
    i.val < 2 ^ 3 := i.isLt
    _ ≤ 2 ^ j := Nat.pow_le_pow_right (by omega) hj
  simp [BitVec.getLsbD_ofNat, Nat.testBit_lt_two_pow h]

/-! ### Taking a word apart -/

@[simp] theorem opField_wordN (op : BitVec 8) : opField (wordN op) = op := by
  apply BitVec.eq_of_getLsbD_eq
  intro j hj
  simp [opField, wordN, hj, show j < 32 by omega]

@[simp] theorem zeroField_wordN (op : BitVec 8) : (wordN op).extractLsb' 8 24 = 0 := by
  apply BitVec.eq_of_getLsbD_eq
  intro j hj
  simp [wordN]

@[simp] theorem opField_wordS (op : BitVec 8) (i : Fin 8) : opField (wordS op i) = op := by
  apply BitVec.eq_of_getLsbD_eq
  intro j hj
  simp only [opField, wordS, BitVec.getLsbD_extractLsb', hj, decide_true, Bool.true_and, Nat.zero_add]
  rw [getLsbD_orShift _ _ _ (by omega), if_pos hj]

@[simp] theorem idxField_wordS (op : BitVec 8) (i : Fin 8) : idxField (wordS op i) = i := by
  have h : (wordS op i).extractLsb' 8 3 = BitVec.ofNat 3 i.val := by
    apply BitVec.eq_of_getLsbD_eq
    intro j hj
    simp only [wordS, BitVec.getLsbD_extractLsb', hj, decide_true, Bool.true_and]
    rw [getLsbD_orShift _ _ _ (by omega), if_neg (by omega), show 8 + j - 8 = j by omega]
    rw [BitVec.getLsbD_ofNat, BitVec.getLsbD_ofNat]
    simp only [hj, show j < 32 by omega, decide_true, Bool.true_and]
  unfold idxField
  rw [h]
  exact Fin.ext (Nat.mod_eq_of_lt i.isLt)

@[simp] theorem zeroField_wordS (op : BitVec 8) (i : Fin 8) : (wordS op i).extractLsb' 11 21 = 0 := by
  apply BitVec.eq_of_getLsbD_eq
  intro j hj
  simp only [wordS, BitVec.getLsbD_extractLsb', hj, decide_true, Bool.true_and]
  rw [getLsbD_orShift _ _ _ (by omega), if_neg (by omega), getLsbD_indexWord _ _ (by omega)]
  simp

@[simp] theorem opField_wordP (op : BitVec 8) (n : BitVec 9) : opField (wordP op n) = op := by
  apply BitVec.eq_of_getLsbD_eq
  intro j hj
  simp only [opField, wordP, BitVec.getLsbD_extractLsb', hj, decide_true, Bool.true_and, Nat.zero_add]
  rw [getLsbD_orShift _ _ _ (by omega), if_pos hj]

@[simp] theorem sizeField_wordP (op : BitVec 8) (n : BitVec 9) : sizeField (wordP op n) = n := by
  apply BitVec.eq_of_getLsbD_eq
  intro j hj
  simp only [sizeField, wordP, BitVec.getLsbD_extractLsb', hj, decide_true, Bool.true_and]
  rw [getLsbD_orShift _ _ _ (by omega), if_neg (by omega), show 8 + j - 8 = j by omega]
  simp [show j < 32 by omega]

@[simp] theorem zeroField_wordP (op : BitVec 8) (n : BitVec 9) : (wordP op n).extractLsb' 17 15 = 0 := by
  apply BitVec.eq_of_getLsbD_eq
  intro j hj
  simp only [wordP, BitVec.getLsbD_extractLsb', hj, decide_true, Bool.true_and]
  rw [getLsbD_orShift _ _ _ (by omega), if_neg (by omega)]
  simp [BitVec.getLsbD_of_ge n (17 + j - 8) (by omega)]

/-! ### Putting a word together -/

/-- A field that is 0 has no bit set. -/
theorem getLsbD_of_zeroField {c : Word} {k w : Nat} (h : c.extractLsb' k w = 0) (j : Nat) (hk : k ≤ j) (hj : j < k + w) :
    c.getLsbD j = false := by
  have := congrArg (fun v => v.getLsbD (j - k)) h
  simpa [show j - k < w by omega, show k + (j - k) = j by omega] using this

/-- A word whose format N fields are right is the format N word of its opcode. -/
theorem wordN_opField {c : Word} (h : c.extractLsb' 8 24 = 0) : wordN (opField c) = c := by
  apply BitVec.eq_of_getLsbD_eq
  intro j hj
  by_cases h8 : j < 8
  · simp [wordN, opField, hj, h8]
  · simp [wordN, opField, h8, getLsbD_of_zeroField h j (by omega) (by omega)]

theorem wordS_fields {c : Word} (h : c.extractLsb' 11 21 = 0) : wordS (opField c) (idxField c) = c := by
  apply BitVec.eq_of_getLsbD_eq
  intro j hj
  rw [wordS, getLsbD_orShift _ _ _ hj]
  by_cases h8 : j < 8
  · rw [if_pos h8]; simp [opField, h8]
  · rw [if_neg h8]
    have hv : BitVec.ofNat 32 (idxField c).val = (c.extractLsb' 8 3).setWidth 32 := by
      apply BitVec.eq_of_toNat_eq
      simp [idxField]
    rw [hv]
    by_cases h11 : j < 11
    · simp [show j - 8 < 3 by omega, show j - 8 < 32 by omega, show 8 + (j - 8) = j by omega]
    · simp [show ¬ j - 8 < 3 by omega, getLsbD_of_zeroField h j (by omega) (by omega)]

theorem wordP_fields {c : Word} (h : c.extractLsb' 17 15 = 0) : wordP (opField c) (sizeField c) = c := by
  apply BitVec.eq_of_getLsbD_eq
  intro j hj
  rw [wordP, getLsbD_orShift _ _ _ hj]
  by_cases h8 : j < 8
  · rw [if_pos h8]; simp [opField, h8]
  · rw [if_neg h8]
    by_cases h17 : j < 17
    · simp [sizeField, show j - 8 < 9 by omega, show j - 8 < 32 by omega, show 8 + (j - 8) = j by omega]
    · simp [sizeField, show ¬ j - 8 < 9 by omega, getLsbD_of_zeroField h j (by omega) (by omega)]

end Sys2Proof
end

