-- ==== Sys2Proof/Laws/Lanes.lean ====
section
/-! SUPPORT. The eight lanes of a block, one lemma for each shared operation (Machine/Ops.lean, Config.lean). -/

namespace Sys2Proof

/-- The round-trip contract in terms of F and G (R170). -/
@[simp] theorem SegTransform.backward_forward (t : SegTransform) (x : Word) :
    t.toSegMaps.backward (t.toSegMaps.forward x) = x := t.roundTrip x

namespace Machine

/-- Lane i of the forward path reads segment i and key i alone (R192, R199). -/
@[simp] theorem seg_encLanes (m : SegMaps) (key : Vector Word 8) (B : Block) (i : Fin 8) :
    seg (encLanes m key B) i = m.forward (seg B i) ^^^ key[i] := by
  simp [encLanes, SegMaps.forward]

/-- Lane i of the inverse path reads segment i and key i alone (R194, R199). -/
@[simp] theorem seg_decLanes (m : SegMaps) (key : Vector Word 8) (B : Block) (i : Fin 8) :
    seg (decLanes m key B) i = m.backward (seg B i ^^^ key[i]) := by
  simp [decLanes, SegMaps.backward]

/-- Key i of a digest is its segment i (R155). -/
@[simp] theorem getElem_splitDigest (D : Block) (i : Nat) (hi : i < 8) : (splitDigest D)[i] = seg D ⟨i, hi⟩ := by
  simp [splitDigest]

end Machine

end Sys2Proof
end

