-- ==== Sys2Proof/Laws/PerInstr.lean ====
section
/-! SUPPORT. Statements about every command as text and word, one lemma per constructor (LAWS.json). -/

namespace Sys2Proof.Laws.OpcodeByte

/-- Bits 7:0 of a command's word are its opcode, and that opcode names a format (R90, R95). -/
def Statement (i : Instr) : Prop := opField (encode i) = opcode i ∧ (formatOf (opField (encode i))).isSome = true

theorem nop : Statement .nop := by unfold Statement; decide
theorem ldblk : Statement .ldblk := by unfold Statement; decide
theorem ldkey (i : Fin 8) : Statement (.ldkey i) := by unfold Statement; revert i; decide
theorem enc : Statement .enc := by unfold Statement; decide
theorem dec : Statement .dec := by unfold Statement; decide
theorem deriveKey : Statement .deriveKey := by unfold Statement; decide
theorem derivePerm (n : BitVec 9) : Statement (.derivePerm n) := by
  have h : opField (encode (.derivePerm n)) = 0x06#8 := by
    apply BitVec.eq_of_getLsbD_eq
    intro j hj
    simp only [opField, encode, wordP, opcode, BitVec.getLsbD_extractLsb', hj, decide_true, Bool.true_and, Nat.zero_add,
      BitVec.getLsbD_or, BitVec.getLsbD_setWidth, BitVec.getLsbD_shiftLeft, Bool.not_true, Bool.and_false, Bool.false_and,
      Bool.or_false, show j < 32 by omega]
  exact ⟨h, by rw [h]; decide⟩
theorem perm : Statement .perm := by unfold Statement; decide
theorem invPerm : Statement .invPerm := by unfold Statement; decide
theorem invert : Statement .invert := by unfold Statement; decide
theorem kmix (i : Fin 8) : Statement (.kmix i) := by unfold Statement; revert i; decide
theorem expand (i : Fin 8) : Statement (.expand i) := by unfold Statement; revert i; decide
theorem subst (i : Fin 8) : Statement (.subst i) := by unfold Statement; revert i; decide
theorem rsubst (i : Fin 8) : Statement (.rsubst i) := by unfold Statement; revert i; decide
theorem rexpand (i : Fin 8) : Statement (.rexpand i) := by unfold Statement; revert i; decide
theorem clrHex : Statement .clrHex := by unfold Statement; decide
theorem clrSeed : Statement .clrSeed := by unfold Statement; decide
theorem clrErr : Statement .clrErr := by unfold Statement; decide

end Sys2Proof.Laws.OpcodeByte
end

