-- ==== Sys2Proof/Tests/Slice0.lean ====
section
/-! SUPPORT. The model's own tests, and for every obligation with hypotheses a witness that meets them. Expected values are those of spec/95_test_vectors.md and of the rules named; REF is the reference segment transform of 92_eei_decisions.md D17. -/

-- One theorem at a time: side by side, the kernel evaluations of this file queue up one thread each.
set_option Elab.async false

open Sys2Proof Sys2Proof.Machine Sys2Proof.Statements

namespace Sys2Proof.Tests

/-! ### Helpers -/

/-- A field of the next state, where there is one. -/
def field {α : Type} (f : State → α) (r : Result) : Option α :=
  match r with
  | .next t => some (f t)
  | .fault _ => none
  | .refused _ => none

/-- The reason of a refusal, where there is one. -/
def reason (r : Result) : Option Refusal :=
  match r with
  | .next _ => none
  | .fault _ => none
  | .refused e => some e

/-- The reset state with one event to perform. -/
def onBus (e : BusEvent) : State := { State.reset with bus := [e] }

/-- The reset state with one command word to run. -/
def onCmd (c : Word) : State := onBus (.write 4 0x000 c)

/-- The source's scenario plaintext P. -/
def plain : Block := 0x0123456789abcdef0123456789abcdef0123456789abcdef0123456789abcdef#256

/-- BLK = P and a table of 256 entries. -/
def table (f : Nat → Nat) : State :=
  { State.reset with blk := plain, pt := ⟨⟨(List.range 256).map fun k => BitVec.ofNat 8 (f k)⟩, by simp⟩, ptSize := 256 }

/-- Tid, Trev and Trot of spec/95_test_vectors.md, and a table that is no permutation (V-PERM-11). -/
def idTable : State := table id
def revTable : State := table fun k => 255 - k
def rotTable : State := table fun k => k + 1
def badTable : State := table fun k => if k = 1 then 255 else 255 - k

/-- The hex port after m pushes of one digit. -/
def hexed (m : Nat) (d : Nibble) : State :=
  { State.reset with hexCnt := BitVec.ofNat 16 m, hexDig := Vector.ofFn fun k => if k.val < m then d else 0 }

/-- The hex port after the digits of P, or after `deadbeef`. -/
def hexedPlain : State :=
  { State.reset with hexCnt := 64, hexDig := Vector.ofFn fun k => BitVec.ofNat 4 (k.val % 16) }
def hexedKey : State :=
  { State.reset with
    hexCnt := 8
    hexDig := Vector.ofFn fun k => ([0xd, 0xe, 0xa, 0xd, 0xb, 0xe, 0xe, 0xf] : List Nibble).getD k.val 0 }

/-- The seed port after pushes of these code points. -/
def seeded (cs : List Nat) : State :=
  { State.reset with
    seedLen := BitVec.ofNat 9 cs.length
    seed := Vector.ofFn fun k => BitVec.ofNat 21 (cs.getD k.val 0) }

/-- The seed port after 256 pushes of `a`. -/
def seedFull : State := { State.reset with seedLen := 256, seed := Vector.replicate 256 0x61 }

/-- REF of D17. -/
def refByte (b : Byte) : Byte := 167 * b + 13
def refByteInv (y : Byte) : Byte := 23 * (y - 13)
def refWord (f : Byte → Byte) (v : Word) : Word :=
  (f (v.extractLsb' 24 8) ++ f (v.extractLsb' 16 8) ++ f (v.extractLsb' 8 8) ++ f (v.extractLsb' 0 8) : BitVec (8 + 8 + 8 + 8))
def ref : SegMaps where
  subst := fun w => refWord refByte ((w.extractLsb' 16 32).rotateLeft 5)
  rsubst := fun y => (refWord refByteInv y).rotateRight 5 ++ ((refWord refByteInv y).rotateRight 5).extractLsb' 16 16

/-- Kt, the keys of V-KEY-1. -/
def keysKt : Vector Word 8 :=
  #v[0x973dfe46, 0x3ec85785, 0xf5f95af5, 0xba3906ee, 0xdb2d931c, 0x24e69824, 0xa89ea65d, 0xba4e813b]

theorem pt_table (f : Nat → Nat) (k : Nat) (hk : k < 256) : PT (table f) k = f k % 256 := by
  simp [PT, table, hk]

theorem isPerm_revTable : IsPerm (PT revTable) 256 := by
  constructor
  · intro k hk; rw [revTable, pt_table _ _ hk]; omega
  · intro j k hj hk h; rw [revTable, pt_table _ _ hj, pt_table _ _ hk] at h; omega

theorem isPerm_idTable : IsPerm (PT idTable) 256 := by
  constructor
  · intro k hk; rw [idTable, pt_table _ _ hk]; simp only [id]; omega
  · intro j k hj hk h; rw [idTable, pt_table _ _ hj, pt_table _ _ hk] at h; simp only [id] at h; omega

theorem not_isPerm_badTable : ¬ IsPerm (PT badTable) 256 := by
  intro h
  have e : PT badTable 0 = PT badTable 1 := by
    rw [badTable, pt_table _ _ (by omega), pt_table _ _ (by omega)]; rfl
  exact absurd (h.2 0 1 (by omega) (by omega) e) (by omega)

/-! ### WellFormed -/

theorem test_wf_accepts_size_256 : (Instr.derivePerm 256).wf = true := by decide
theorem test_wf_refuses_size_257 : (Instr.derivePerm 257).wf = false := by decide
theorem test_wf_refuses_size_511 : (Instr.derivePerm 511).wf = false := by decide

/-! ### Decoding: words written out from R91 to R95; the two forms of an operand word at its ends -/

theorem test_decode_nop : decode 0b00000000000000000000000000000000#32 = .ok .nop := by decide
theorem test_decode_ldblk : decode 0b00000000000000000000000000000001#32 = .ok .ldblk := by decide
theorem test_decode_ldkey : decode 0b00000000000000000000001100000010#32 = .ok (.ldkey 3) := by decide
theorem test_decode_enc : decode 0b00000000000000000000000000000011#32 = .ok .enc := by decide
theorem test_decode_dec : decode 0b00000000000000000000000000000100#32 = .ok .dec := by decide
theorem test_decode_deriveKey : decode 0b00000000000000000000000000000101#32 = .ok .deriveKey := by decide
theorem test_decode_derivePerm_256 : decode 0b00000000000000010000000000000110#32 = .ok (.derivePerm 256) := by decide
theorem test_decode_derivePerm_255 : decode 0b00000000000000001111111100000110#32 = .ok (.derivePerm 255) := by decide
theorem test_decode_perm : decode 0b00000000000000000000000000000111#32 = .ok .perm := by decide
theorem test_decode_invPerm : decode 0b00000000000000000000000000001000#32 = .ok .invPerm := by decide
theorem test_decode_invert : decode 0b00000000000000000000000000001001#32 = .ok .invert := by decide
theorem test_decode_kmix : decode 0b00000000000000000000010100001010#32 = .ok (.kmix 5) := by decide
theorem test_decode_expand : decode 0b00000000000000000000000000001011#32 = .ok (.expand 0) := by decide
theorem test_decode_subst : decode 0b00000000000000000000010000001100#32 = .ok (.subst 4) := by decide
theorem test_decode_rsubst : decode 0b00000000000000000000011100001101#32 = .ok (.rsubst 7) := by decide
theorem test_decode_rexpand : decode 0b00000000000000000000000100001110#32 = .ok (.rexpand 1) := by decide
theorem test_decode_clrHex : decode 0b00000000000000000000000000001111#32 = .ok .clrHex := by decide
theorem test_decode_clrSeed : decode 0b00000000000000000000000000010000#32 = .ok .clrSeed := by decide
theorem test_decode_clrErr : decode 0b00000000000000000000000000010001#32 = .ok .clrErr := by decide

/-- V-CTL-1 to V-CTL-9: illegal words, each for its own reason. -/
theorem test_decode_illegal :
    decode 0x00000012#32 = .error .illegalOpcode ∧ decode 0x000000FF#32 = .error .illegalOpcode ∧
    decode 0x00000101#32 = .error .mustBeZero ∧ decode 0x00000800#32 = .error .mustBeZero ∧
    decode 0x00000802#32 = .error .mustBeZero ∧ decode 0x00020006#32 = .error .mustBeZero ∧
    decode 0x00010106#32 = .error .sizeTooLarge ∧ decode 0x0001FF06#32 = .error .sizeTooLarge ∧
    decode 0x80000003#32 = .error .mustBeZero := by decide

theorem test_decodeTableWord :
    decodeTableWord 32 0x00000302 = some (.ldkey 3) ∧ decodeTableWord 8 0xFFFFFF0A = some (.kmix 0) ∧
    decodeTableWord 32 0x12 = none := by decide

theorem test_encode :
    encode (.ldkey 3) = 0x00000302#32 ∧ encode (.derivePerm 256) = 0x00010006#32 ∧ encode (.derivePerm 8) = 0x00000806#32 ∧
    encode (.rexpand 7) = 0x0000070E#32 := by decide

/-! ### Fetching: a command from reset -/

theorem test_withFetchWord :
    step (State.reset.withFetchWord 32 0x00000302) = exec (.ldkey 3) State.reset := rfl

/-! ### Codec -/

/-- V-HEX-1. -/
theorem test_ldblk : field (fun t => (t.blk, t.hexCnt, statusWord t)) (exec .ldblk hexedPlain) = some (plain, 0, 0x00000100) := by
  decide +kernel

/-- V-HEX-8: FORMAT wins over BLOCK_SIZE, and the port is consumed. -/
theorem test_ldblk_format_first :
    field (fun t => (t.blk, t.hexCnt, t.hexBad, statusWord t)) (exec .ldblk { hexed 63 0xa with hexBad := true }) =
      some (0, 0, false, 0x00000111) := by
  decide +kernel

/-- V-HEX-11. -/
theorem test_ldkey :
    field (fun t => (t.key.toList, statusWord t)) (exec (.ldkey 3) hexedKey) =
      some ([0, 0, 0, 0xdeadbeef, 0, 0, 0, 0], 0x00000200) := by
  decide +kernel

/-- V-HEX-12: nine digits. -/
theorem test_ldkey_size :
    field (fun t => (t.key.toList, statusWord t)) (exec (.ldkey 3) (hexed 9 0xd)) =
      some ([0, 0, 0, 0, 0, 0, 0, 0], 0x00000213) := by
  decide +kernel

/-- V-KMIX-1. -/
theorem test_kmix :
    field (fun t => (t.blk, statusWord t))
        (exec (.kmix 2) { State.reset with blk := plain, key := #v[0, 0, 0xffffffff, 0, 0, 0, 0, 0] }) =
      some (0x0123456789abcdeffedcba9889abcdef0123456789abcdef0123456789abcdef#256, 0x00000A00) := by
  decide +kernel

/-- V-HEX-18. -/
theorem test_clrHex :
    field (fun t => (hexStatWord t, statusWord t)) (exec .clrHex (hexed 3 0xb)) = some (0, 0x00000F00) := by
  decide +kernel

/-- V-HEX-17: all 32 bits of a pushed value are compared. -/
theorem test_hexPush_all_bits : hexStatWord (hexPush 0x130 State.reset) = 0x00010001 := by decide +kernel

/-- V-HEX-10, its last push: HEXCNT stays at 0xFFFF. -/
theorem test_hexPush_saturates : (hexPush 0x30 (hexed 0xFFFF 0)).hexCnt = 0xFFFF := by decide +kernel

/-- V-HEX-19, V-HEX-20. -/
theorem test_hex_views :
    readReg (.blkHex 3) (table id) = 0x33 ∧ readReg (.blkHex 63) (table id) = 0x66 ∧
    readReg (.keyHex 10) { State.reset with key := #v[0, 0x00c0ffee, 0, 0, 0, 0, 0, 0] } = 0x63 := by
  decide +kernel

/-! ### Permutation -/

/-- V-PERM-25: the table of V-PERM-19 inverted; the entry after it stays. -/
theorem test_invert :
    field (fun t => (t.pt.toList.take 9, statusWord t))
        (exec .invert { table (fun k => [0, 6, 4, 1, 2, 3, 7, 5].getD k 77) with ptSize := 8 }) =
      some ([0, 3, 4, 5, 2, 7, 1, 6, 77], 0x00000900) := by
  decide +kernel

/-- V-PERM-24: size 0 writes no entry. -/
theorem test_derivePerm_zero :
    field (fun t => (t.ptSize, statusWord t)) (exec (.derivePerm 0) (seeded [0x61])) = some (0, 0x00000600) := by
  decide +kernel

/-- V-PERM-27. -/
theorem test_derivePerm_seed :
    field (fun t => (t.ptSize, statusWord t)) (exec (.derivePerm 256) (seedPush 0xD800 State.reset)) =
      some (0, 0x00000616) := by
  decide +kernel

/-- V-PERM-15, V-PERM-18: the seed sums. -/
theorem test_seedSum :
    seedSum (seeded [0x61, 0x62, 0x63]) = 294 ∧
    seedSum (seeded [0x74, 0x65, 0x73, 0x74, 0x40, 0x65, 0x78, 0x61, 0x6d, 0x70, 0x6c, 0x65, 0x2e, 0x63, 0x6f, 0x6d]) = 1625 := by
  decide +kernel

/-! ### Key derivation -/

/-- V-KEY-8. -/
theorem test_deriveKey_seed :
    field (fun t => (t.key.toList, statusWord t)) (exec .deriveKey (seedPush 0xD800 State.reset)) =
      some ([0, 0, 0, 0, 0, 0, 0, 0], 0x00000516) := by
  decide +kernel

/-- S9: the digest of the empty seed under SHA, split. -/
theorem test_deriveKey_split :
    (splitDigest 0xe3b0c44298fc1c149afbf4c8996fb92427ae41e4649b934ca495991b7852b855#256).toList =
      [0xe3b0c442, 0x98fc1c14, 0x9afbf4c8, 0x996fb924, 0x27ae41e4, 0x649b934c, 0xa495991b, 0x7852b855] := by
  decide +kernel

/-- V-KEY-11. -/
theorem test_clrSeed :
    field (fun t => (seedStatWord t, statusWord t)) (exec .clrSeed (seeded [0x61, 0x62])) = some (0, 0x00001000) := by
  decide +kernel

/-- V-KEY-7's last push, V-KEY-8 to V-KEY-10. -/
theorem test_seedPush :
    seedStatWord (seedPush 0x61 seedFull) = 0x00010100 ∧ seedStatWord (seedPush 0xD800 State.reset) = 0x00010000 ∧
    seedStatWord (seedPush 0x110000 State.reset) = 0x00010000 ∧ seedStatWord (seedPush 0x10FFFF State.reset) = 0x00000001 := by
  decide +kernel

/-! ### Segment transform -/

/-- The rows 01234567 and deadbeef of the segment table, under REF: EXPAND, F, RSUBST of F, G of F, G. -/
theorem test_ref_maps :
    ref.expand 0x01234567 = 0x012345670123 ∧ ref.forward 0x01234567 = 0x89e5412d ∧ ref.rsubst 0x89e5412d = 0x012345670123 ∧
    ref.backward 0x89e5412d = 0x01234567 ∧ ref.backward 0x01234567 = 0xb767d040 ∧ ref.forward 0xdeadbeef = 0x006e38ca := by
  decide +kernel

theorem test_expand : field (fun t => (t.w, statusWord t)) (exec (.expand 1) (table id)) =
    some (Config.segTransform.expand 0x89abcdef, 0x00000B00) := rfl

theorem test_subst : field (fun t => seg t.blk 7) (exec (.subst 7) (table id)) = some (Config.segTransform.subst 0) := by
  simp only [exec, execSubst, finish, field, seg_setSeg]; rfl

theorem test_rsubst : field (fun t => (t.w, statusWord t)) (exec (.rsubst 7) (table id)) =
    some (Config.segTransform.rsubst 0x89abcdef, 0x00000D00) := rfl

theorem test_rexpand : field (fun t => seg t.blk 0) (exec (.rexpand 0) (table id)) = some (Config.segTransform.rexpand 0) := by
  simp only [exec, execRexpand, finish, field, seg_setSeg]; rfl

/-! ### Pipeline -/

/-- V-PIPE-7 under REF: the lanes of DEC of 0 with zero keys; Tid moves no position after them. -/
theorem test_decrypt_lanes :
    decLanes ref (Vector.replicate 8 0) 0 =
      0xaeaeaeaeaeaeaeaeaeaeaeaeaeaeaeaeaeaeaeaeaeaeaeaeaeaeaeaeaeaeaeae#256 := by
  decide +kernel

/-- V-PIPE-17: LENGTH_MISMATCH is tested first. -/
theorem test_enc_length_first : field statusWord (exec .enc { badTable with ptSize := 8 }) = some 0x00000314 := by
  decide +kernel

/-- V-PIPE-15. -/
theorem test_dec_length : field statusWord (exec .dec { idTable with ptSize := 8 }) = some 0x00000414 := by
  decide +kernel

/-! ### Control -/

/-- V-CTL-11. -/
theorem test_nop : field statusWord (exec .nop { State.reset with err := 7, eany := true, lastop := 6 }) = some 0x00000010 := by
  decide +kernel

/-- V-CTL-12. -/
theorem test_clrErr : field statusWord (exec .clrErr { State.reset with err := 7, eany := true, lastop := 6 }) = some 0x00001100 := by
  decide +kernel

/-- V-CTL-3: an illegal LDBLK word, and the hex port is not consumed. -/
theorem test_illegal_word :
    field (fun t => (statusWord t, t.hexCnt)) (step { hexed 4 1 with bus := [.write 4 0 0x00000101] }) =
      some (0x00000117, 4) := by
  decide +kernel

/-! ### The window -/

/-- V-MEM-1, V-MEM-2. -/
theorem test_reads_zero :
    field State.reads (step (onBus (.read 4 0x01C))) = some [0] ∧ field State.reads (step (onBus (.read 4 0x300))) = some [0] ∧
    field State.reads (step (onBus (.read 4 0x000))) = some [0] := by
  decide +kernel

/-- V-MEM-3, V-MEM-4, V-PERM-26, V-SEG-6. -/
theorem test_writes :
    field statusWord (step (onBus (.write 4 0x004 0xffffffff))) = some 0 ∧
    field (fun t => readReg (.pt 0) t) (step (onBus (.write 4 0x400 0x1234))) = some 0x34 ∧
    field State.ptSize (step (onBus (.write 4 0x018 300))) = some 0 ∧
    field State.ptSize (step (onBus (.write 4 0x018 256))) = some 256 ∧
    field (fun t => readReg .wHi t) (step (onBus (.write 4 0x084 0xffffffff))) = some 0x0000ffff := by
  decide +kernel

/-- V-MEM-5. -/
theorem test_refusals :
    reason (step (onBus (.read 2 0x040))) = some .unsupportedAccessWidth ∧
    reason (step (onBus (.write 4 0x042 0))) = some .misalignedAccess ∧
    reason (step (onBus (.read 4 0x800))) = some .outsideWindow := by
  decide +kernel

/-- R69: byte 0 of the block is the first two digits of P, and BLK_W[1] reads its digits 8 to 15. -/
theorem test_block_order : blockByte plain 0 = 0x01 ∧ blockByte plain 31 = 0xef ∧ readReg (.blkW 1) (table id) = 0x89abcdef := by
  decide +kernel

/-! ### The assembler -/

theorem test_parseCommand :
    parseCommand "derivePerm 256".toList = some (.derivePerm 256) ∧ parseCommand "LDKEY 0x3".toList = some (.ldkey 3) ∧
    parseCommand "LDKEY 8".toList = none ∧ parseCommand "NOP 1".toList = none := by
  decide +kernel

theorem test_expandLine :
    expandLine (.ldkey 1 ['0', 'x']) = [.write 4 0 0x0F, .write 4 8 0x30, .write 4 8 0x78, .write 4 0 0x102] ∧
    expandLine (.wrpt [2, 1]) = [.write 4 0x400 2, .write 4 0x404 1, .write 4 0x018 2] := by
  decide +kernel

/-! ### Witnesses: for every obligation with hypotheses, a state and operands that meet them, one for each clause -/

theorem witness_DecodeOfEncode :
    (Instr.derivePerm 0).wf = true ∧ (Instr.derivePerm 256).wf = true ∧ (Instr.ldkey 7).wf = true ∧ Instr.clrErr.wf = true := by
  decide

theorem witness_LegalWordsHaveOneCommand :
    decode 0x00010006#32 = .ok (.derivePerm 256) ∧ ¬ IllegalWord 0x00010006#32 ∧ IllegalWord 0x00010106#32 := by
  refine ⟨by decide, by unfold IllegalWord; decide, by unfold IllegalWord; decide⟩

theorem witness_DecodeAgreesWithOpcodeTable :
    (⟨"DERIVEPERM", 0x00000006#32, 0xFFFE00FF#32⟩ : OpcodeRow) ∈ opcodeTable ∧
    (⟨"CLRERR", 0x00000011#32, 0xFFFFFFFF#32⟩ : OpcodeRow) ∈ opcodeTable := by
  decide

theorem witness_StepRunsDecodedCommand :
    (onCmd 0x0000070A).bus = .write 4 0x000 0x0000070A :: [] ∧ decode 0x0000070A = .ok (.kmix 7) := ⟨rfl, by decide⟩

/-- One word of each way to be illegal: a free opcode, and a bit that must be 0 in each format, and a size of 257. -/
theorem witness_IllegalWordChangesOnlyStatus :
    (∀ c, (onCmd c).bus = .write 4 0x000 c :: []) ∧ IllegalWord 0x00000012 ∧ IllegalWord 0x00000101 ∧ IllegalWord 0x00000802 ∧
    IllegalWord 0x00020006 ∧ IllegalWord 0x00010106 := by
  refine ⟨fun _ => rfl, ?_, ?_, ?_, ?_, ?_⟩ <;> unfold IllegalWord <;> decide

theorem witness_LegalEventCompletes :
    State.reset.bus = [] ∧ (onBus (.read 4 0x7FC)).bus = .read 4 0x7FC :: [] ∧ legalEvent (.read 4 0x7FC) = true ∧
    legalEvent .reset = true ∧ safeBus (onBus (.write 4 0x000 0x12)) = true := by
  refine ⟨rfl, rfl, by decide, by decide, by decide⟩

theorem witness_IllegalAccessIsRefused :
    (∀ e, (onBus e).bus = e :: []) ∧ ((2 : Nat) ≠ 4 ∧ 0x7FC % 4 = 0 ∧ 0x7FC < 0x800) ∧
    (0x7FF % 4 ≠ 0 ∧ 0x7FF < 0x800) ∧ (0x800 % 4 = 0 ∧ 0x800 ≤ 0x800) ∧ ((8 : Nat) ≠ 4 ∨ 0x801 % 4 ≠ 0 ∨ 0x800 ≤ 0x801) := by
  refine ⟨fun _ => rfl, by decide, by decide, by decide, by decide⟩

/-- The first and the last register of each group, read from a state that holds P, W and a table. -/
theorem witness_DataRegisterReads :
    let s : Nat → State := fun off => { table (fun k => k) with w := 0x123456789abc, bus := [.read 4 off] }
    (∀ off, (s off).bus = .read 4 off :: []) ∧
    field State.reads (step (s 0x040)) = some [0x01234567] ∧ field State.reads (step (s 0x05C)) = some [0x89abcdef] ∧
    field State.reads (step (s 0x060)) = some [0] ∧ field State.reads (step (s 0x07C)) = some [0] ∧
    field State.reads (step (s 0x080)) = some [0x56789abc] ∧ field State.reads (step (s 0x084)) = some [0x1234] ∧
    field State.reads (step (s 0x018)) = some [256] ∧
    field State.reads (step (s 0x400)) = some [0] ∧ field State.reads (step (s 0x7FC)) = some [255] := by
  refine ⟨fun _ => rfl, ?_, ?_, ?_, ?_, ?_, ?_, ?_, ?_, ?_⟩ <;> decide +kernel

theorem witness_StatusRegisterReads :
    (onBus (.read 4 0x004)).bus = .read 4 0x004 :: [] ∧ (onBus (.read 4 0x00C)).bus = .read 4 0x00C :: [] ∧
    (onBus (.read 4 0x014)).bus = .read 4 0x014 :: [] := ⟨rfl, rfl, rfl⟩

theorem witness_HexViewReads :
    (onBus (.read 4 (0x100 + 4 * (63 : Fin 64).val))).bus = .read 4 0x1FC :: [] ∧
    (onBus (.read 4 (0x200 + 4 * (8 * (7 : Fin 8).val + (7 : Fin 8).val)))).bus = .read 4 0x2FC :: [] := ⟨rfl, rfl⟩

theorem witness_ReservedWordsReadZeroIgnoreWrites :
    (∀ e, (onBus e).bus = e :: []) ∧ ReservedOffset 0x01C ∧ ReservedOffset 0x03C ∧ ReservedOffset 0x088 ∧
    ReservedOffset 0x0FC ∧ ReservedOffset 0x300 ∧ ReservedOffset 0x3FC := by
  refine ⟨fun _ => rfl, ?_, ?_, ?_, ?_, ?_, ?_⟩ <;> unfold ReservedOffset <;> decide

theorem witness_ReadOnlyAndWriteOnlyRegisters :
    (∀ e, (onBus e).bus = e :: []) ∧ ReadOnlyOffset 0x004 ∧ ReadOnlyOffset 0x00C ∧ ReadOnlyOffset 0x014 ∧
    ReadOnlyOffset 0x100 ∧ ReadOnlyOffset 0x2FC := by
  refine ⟨fun _ => rfl, ?_, ?_, ?_, ?_, ?_⟩ <;> unfold ReadOnlyOffset <;> decide

/-- PT_SIZE takes 256 and not 257; the other clauses at their first and last register. -/
theorem witness_DataRegisterWrites :
    (∀ off v, (onBus (.write 4 off v)).bus = .write 4 off v :: []) ∧
    0x05C = 0x040 + 4 * (7 : Fin 8).val ∧ 0x07C = 0x060 + 4 * (7 : Fin 8).val ∧ 0x7FC = 0x400 + 4 * (255 : Fin 256).val ∧
    (256 : Word).toNat ≤ 256 ∧ 256 < (257 : Word).toNat := by
  refine ⟨fun _ _ => rfl, by decide, by decide, by decide, by decide, by decide⟩

theorem witness_HexPushAppends :
    (onBus (.write 4 0x008 0x66)).bus = .write 4 0x008 0x66 :: [] ∧ isHexDigit 0x66 = true ∧ isHexDigit 0x67 = false := by
  refine ⟨rfl, by decide, by decide⟩

/-- 63, 64 and 65 digits, none, and a bad character. -/
theorem witness_LdblkEffect :
    ((hexed 64 1).hexBad = false ∧ (hexed 64 1).hexCnt = 64) ∧
    ((hexed 63 1).hexBad = false ∧ (hexed 63 1).hexCnt ≠ 0 ∧ (hexed 63 1).hexCnt ≠ 64) ∧
    ((hexed 65 1).hexBad = false ∧ (hexed 65 1).hexCnt ≠ 0 ∧ (hexed 65 1).hexCnt ≠ 64) ∧
    State.reset.hexCnt = 0 ∧ { hexed 64 1 with hexBad := true }.hexBad = true := by
  decide +kernel

theorem witness_LdkeyEffect :
    ((hexed 8 1).hexBad = false ∧ (hexed 8 1).hexCnt = 8) ∧
    ((hexed 7 1).hexBad = false ∧ (hexed 7 1).hexCnt ≠ 0 ∧ (hexed 7 1).hexCnt ≠ 8) ∧
    ((hexed 9 1).hexBad = false ∧ (hexed 9 1).hexCnt ≠ 0 ∧ (hexed 9 1).hexCnt ≠ 8) ∧
    State.reset.hexCnt = 0 ∧ { hexed 8 1 with hexBad := true }.hexBad = true := by
  decide +kernel

/-- The text clauses: empty, one bad character, 63 digits, 64 digits. -/
theorem witness_LdblkLineLoadsOrReports :
    (([] : List Char) = [] ∨ ∃ c ∈ ([] : List Char), isHexDigit (charWord c) = false) ∧
    (∃ c ∈ ['g'], isHexDigit (charWord c) = false) ∧
    (List.replicate 63 'a' ≠ [] ∧ (∀ c ∈ List.replicate 63 'a', isHexDigit (charWord c) = true) ∧ (List.replicate 63 'a').length ≠ 64) ∧
    ((∀ c ∈ List.replicate 64 'F', isHexDigit (charWord c) = true) ∧ (List.replicate 64 'F').length = 64) := by
  refine ⟨.inl rfl, ⟨'g', List.mem_singleton_self _, by decide⟩, ⟨by decide, fun c hc => ?_, by rw [List.length_replicate]; decide⟩,
    fun c hc => ?_, List.length_replicate⟩ <;> rw [List.eq_of_mem_replicate hc] <;> decide

/-- Sizes 0, 256 and 257, a good and a bad seed port. -/
theorem witness_DerivePermEffect :
    256 < (257 : BitVec 9).toNat ∧
    ((256 : BitVec 9).toNat ≤ 256 ∧ (seedPush 0xD800 State.reset).seedBad = true) ∧
    ((256 : BitVec 9).toNat ≤ 256 ∧ seedFull.seedBad = false) ∧ ((0 : BitVec 9).toNat ≤ 256 ∧ State.reset.seedBad = false) := by
  decide +kernel

theorem witness_DerivedTableIsPermutation :
    (256 : BitVec 9).toNat ≤ 256 ∧ seedFull.seedBad = false ∧ (256 : BitVec 9) = 256 := by
  decide +kernel

/-- "abc" and "cba" (S11). -/
theorem witness_AnagramSeedsGiveOneTable :
    (8 : BitVec 9).toNat ≤ 256 ∧ (seeded [0x61, 0x62, 0x63]).seedBad = false ∧ (seeded [0x63, 0x62, 0x61]).seedBad = false ∧
    ((seeded [0x61, 0x62, 0x63]).seed.toList.take (seeded [0x61, 0x62, 0x63]).seedLen.toNat).Perm
      ((seeded [0x63, 0x62, 0x61]).seed.toList.take (seeded [0x63, 0x62, 0x61]).seedLen.toNat) := by
  decide +kernel

/-- A table of 256 entries that is a permutation, one that is none, and one of 255 entries: the hypotheses of PermEffect and InvPermEffect, of EncEffect and DecEffect, of PermAndInvPermCancel, EncAndDecRoundTrip. -/
theorem witness_table_clauses :
    (revTable.ptSize = 256 ∧ IsPerm (PT revTable) 256) ∧ (badTable.ptSize = 256 ∧ ¬ IsPerm (PT badTable) 256) ∧
    { revTable with ptSize := 255 }.ptSize ≠ 256 :=
  ⟨⟨rfl, isPerm_revTable⟩, ⟨rfl, not_isPerm_badTable⟩, by decide⟩

theorem witness_PermEffect : revTable.ptSize = 256 ∧ IsPerm (PT revTable) 256 := witness_table_clauses.1
theorem witness_InvPermEffect : revTable.ptSize = 256 ∧ IsPerm (PT revTable) 256 := witness_table_clauses.1
theorem witness_EncEffect : revTable.ptSize = 256 ∧ IsPerm (PT revTable) 256 := witness_table_clauses.1
theorem witness_DecEffect : revTable.ptSize = 256 ∧ IsPerm (PT revTable) 256 := witness_table_clauses.1
theorem witness_PermAndInvPermCancel : revTable.ptSize = 256 ∧ IsPerm (PT revTable) 256 := witness_table_clauses.1
theorem witness_EncAndDecRoundTrip : revTable.ptSize = 256 ∧ IsPerm (PT revTable) 256 := witness_table_clauses.1

/-- A permutation and none, at PT_SIZE 256; the empty table. -/
theorem witness_InvertEffect :
    (revTable.ptSize.toNat ≤ 256 ∧ IsPerm (PT revTable) revTable.ptSize.toNat) ∧
    (badTable.ptSize.toNat ≤ 256 ∧ ¬ IsPerm (PT badTable) badTable.ptSize.toNat) ∧
    (State.reset.ptSize.toNat ≤ 256 ∧ IsPerm (PT State.reset) State.reset.ptSize.toNat) :=
  ⟨⟨le_refl 256, isPerm_revTable⟩, ⟨le_refl 256, not_isPerm_badTable⟩,
    Nat.zero_le 256, fun k hk => absurd hk (Nat.not_lt_zero k), fun j _ hj => absurd hj (Nat.not_lt_zero j)⟩

theorem witness_InvertTwiceRestores : revTable.ptSize.toNat ≤ 256 ∧ IsPerm (PT revTable) revTable.ptSize.toNat :=
  ⟨le_refl 256, isPerm_revTable⟩

/-- A host write to PT[255] changes the table. -/
theorem witness_WhatChangesTheTable :
    ∃ t, step { idTable with bus := [.write 4 0x7FC 7] } = .next t ∧ t.pt ≠ idTable.pt := by
  refine ⟨{ idTable with bus := [], pt := idTable.pt.set 255 7 }, rfl, fun h => ?_⟩
  have h' : (idTable.pt.set 255 7)[255] = idTable.pt[255] := congrArg (fun p : Vector Byte 256 => p[255]) h
  exact absurd h' (by decide +kernel)

/-- Two states that differ above PT_SIZE, and a command that reads the table. -/
theorem witness_EntriesAboveSizeAreNotRead :
    (∀ k : Fin 256, k.val < ({ idTable with ptSize := 255 }).ptSize.toNat →
      (idTable.pt.set 255 0)[k] = ({ idTable with ptSize := 255 }).pt[k]) ∧
    ∃ t, exec .invert { idTable with ptSize := 255 } = .next t := by
  refine ⟨fun k hk => ?_, ?_⟩
  · have h : (255 : Nat) ≠ k.val := fun e => absurd (show (255 : Nat) < 255 by rw [← e] at hk; exact hk) (Nat.lt_irrefl 255)
    show (idTable.pt.set 255 0)[k.val] = idTable.pt[k.val]
    rw [Vector.getElem_set, if_neg h]
  · simp only [exec, execInvert]
    split
    · exact ⟨_, rfl⟩
    · exact ⟨_, rfl⟩

/-- The last scalar value into an empty seed port; a surrogate; a push to a full port. -/
theorem witness_SeedPushAppendsOrDrops :
    (∀ v, (onBus (.write 4 0x010 v)).bus = .write 4 0x010 v :: []) ∧ State.reset.seedLen.toNat ≤ 256 ∧
    seedFull.seedLen.toNat ≤ 256 ∧ seedFull.seedLen = 256 ∧ State.reset.seedLen ≠ 256 ∧
    ¬ ((0xD800 : Word).toNat ≤ 0xD7FF ∨ (0xE000 ≤ (0xD800 : Word).toNat ∧ (0xD800 : Word).toNat ≤ 0x10FFFF)) ∧
    ((0x10FFFF : Word).toNat ≤ 0xD7FF ∨ (0xE000 ≤ (0x10FFFF : Word).toNat ∧ (0x10FFFF : Word).toNat ≤ 0x10FFFF)) := by
  refine ⟨fun _ => rfl, ?_, ?_, ?_, ?_, ?_, ?_⟩ <;> decide +kernel

/-- One code point that still fits, and one too many. -/
theorem witness_SeedTextIsAppended :
    State.reset.seedLen.toNat ≤ 256 ∧ State.reset.seedLen.toNat + ['a'].length ≤ 256 ∧
    seedFull.seedLen.toNat ≤ 256 ∧ 256 < seedFull.seedLen.toNat + ['a'].length := by
  decide +kernel

theorem witness_DeriveKeyEffect : (seedPush 0xD800 State.reset).seedBad = true ∧ State.reset.seedBad = false := by
  decide +kernel

/-- A write to KEY[7] between two derivations. -/
theorem witness_DerivationIsStable :
    (∀ e ∈ [BusEvent.write 4 0x07C 5], ¬ TouchesSeed e) ∧ State.reset.seedBad = false ∧
    (∃ t, performAll [.write 4 0x07C 5] State.reset = .next t) ∧ (256 : BitVec 9).toNat ≤ 256 := by
  refine ⟨fun e he => ?_, rfl, ⟨_, rfl⟩, by decide⟩
  rw [List.mem_singleton.mp he]
  rintro (⟨w, v, h⟩ | ⟨w, h⟩ | h)
  · injection h with _ h; exact absurd h (by decide)
  · injection h with _ h; exact absurd h (by decide)
  · cases h

theorem witness_StepwisePathsEqualEncAndDec : idTable.ptSize = 256 ∧ ∀ k, k < 256 → PT idTable k = k :=
  ⟨rfl, fun k hk => by rw [idTable, pt_table _ _ hk]; exact Nat.mod_eq_of_lt hk⟩

theorem witness_BlockCommandsWriteOnlyBlockAndStatus : ∃ t, exec .enc State.reset = .next t := ⟨_, rfl⟩

/-- P and P with position 0 flipped under Trev, where position 0 is PT[255] (V-PIPE-11); a change of segment 7. -/
theorem witness_EncAndDecLocality :
    revTable.ptSize = 256 ∧ IsPerm (PT revTable) 256 ∧
    (255 < 256 ∧ ∀ q, q < 256 → q ≠ PT revTable 255 → pos (plain ^^^ 0x8000000000000000000000000000000000000000000000000000000000000000#256) q = pos revTable.blk q) ∧
    ∀ k : Fin 8, k ≠ 7 → seg (plain ^^^ 0xffffffff#256) k = seg revTable.blk k := by
  refine ⟨rfl, isPerm_revTable, ⟨by decide, fun q hq hne => ?_⟩, by decide +kernel⟩
  rw [revTable, pt_table _ _ (by decide)] at hne
  revert q
  decide +kernel

theorem witness_KeySegmentTouchesOnlyItsLane : revTable.ptSize = 256 ∧ IsPerm (PT revTable) 256 := witness_table_clauses.1

theorem witness_SuccessKeepsStickyError :
    ∃ t, exec .nop State.reset = .next t ∧ t.err = 0 ∧ Instr.nop ≠ .clrErr := ⟨_, rfl, rfl, by decide⟩

/-- A failed ENC, and a failed LDBLK, which consumes the port. -/
theorem witness_FailureChangesOnlyStatusAndHexPort :
    (∃ t, exec .enc State.reset = .next t ∧ t.err ≠ 0) ∧ (Instr.enc ≠ .ldblk ∧ ∀ k, Instr.enc ≠ .ldkey k) ∧
    ∃ t, exec .ldblk State.reset = .next t ∧ t.err ≠ 0 := by
  refine ⟨⟨_, rfl, by decide⟩, ⟨by decide, fun k h => by cases h⟩, ⟨_, rfl, by decide⟩⟩

theorem witness_StatusDoesNotInfluenceCommands : ∃ t, exec .perm State.reset = .next t := ⟨_, rfl⟩

theorem witness_RetryFailsAlike :
    Instr.enc ≠ .ldblk ∧ (∀ k, Instr.enc ≠ .ldkey k) ∧ ∃ t, exec .enc State.reset = .next t ∧ t.err ≠ 0 :=
  ⟨by decide, fun k h => (by cases h), _, rfl, by decide⟩

/-- CLRERR and reset. -/
theorem witness_OnlyClrErrAndResetClearEany :
    (∃ t, step { onCmd 0x00000011 with eany := true } = .next t ∧ t.eany = false) ∧
    ∃ t, step { onBus .reset with eany := true } = .next t ∧ t.eany = false :=
  ⟨⟨_, rfl, rfl⟩, ⟨_, rfl, rfl⟩⟩

theorem witness_ResetClearsEverythingButTheTable : (onBus .reset).bus = .reset :: [] := rfl

theorem witness_ResetStateAndItsFirstCommands : Instr.enc = .enc ∨ Instr.enc = .dec ∨ Instr.enc = .perm ∨ Instr.enc = .invPerm :=
  .inl rfl

/-- A state other than reset that meets the invariant, with a full seed port and a failed command behind it. -/
theorem witness_StepKeepsInvariant :
    let s := { seedFull with err := 4, eany := true, lastop := 3, ptSize := 256, bus := [.write 4 0x010 0x61] }
    s.Inv ∧ ∃ t, step s = .next t := by
  refine ⟨⟨by decide, by decide, by decide, fun _ => rfl, fun h => (by cases h), fun k hk _ => ?_, fun k hk h => ?_, fun k hk => ?_⟩, _, rfl⟩
  · exact Vector.getElem_replicate hk
  · exact absurd hk (Nat.not_lt.mpr h)
  · show isScalar (((Vector.replicate 256 (0x61 : CodePoint))[k]).setWidth 32) = true
    rw [Vector.getElem_replicate]
    decide

/-! ### Tests over a whole table, the slowest to check, last -/

/-- V-PERM-2: Trot rotates the block left by one bit. -/
theorem test_perm :
    applyPerm rotTable.blk (currentTable rotTable) =
      0x02468acf13579bde02468acf13579bde02468acf13579bde02468acf13579bde#256 := by
  decide +kernel

/-- V-PERM-3. -/
theorem test_invPerm :
    applyPerm rotTable.blk (invertTable (currentTable rotTable)) =
      0x8091a2b3c4d5e6f78091a2b3c4d5e6f78091a2b3c4d5e6f78091a2b3c4d5e6f7#256 := by
  decide +kernel

/-- V-PERM-11. -/
theorem test_perm_not_permutation :
    field (fun t => (t.blk, statusWord t)) (exec .perm badTable) = some (plain, 0x00000715) := by
  decide +kernel

/-- V-PERM-12. -/
theorem test_invert_not_permutation : field statusWord (exec .invert badTable) = some 0x00000915 := by
  decide +kernel

/-- V-PIPE-10 under REF: P, Kt, Trev. -/
theorem test_encrypt :
    encrypt ref keysKt (currentTable revTable) plain =
      0x109ed53967bdaad4725a718ae34cfbbf5c8eb8637d9365752f3d8d22e33b7c6a#256 := by
  decide +kernel

end Sys2Proof.Tests
end

namespace Sys2Proof

/-- The word of a command read from a word's fields is the one of its opcode's format. -/
theorem encode_of_commandOf {op : BitVec 8} {k : Fin 8} {n : BitVec 9} {i : Instr} (h : commandOf op k n = some i) :
    (formatOf op = some .N ∧ encode i = wordN op) ∨ (formatOf op = some .S ∧ encode i = wordS op k) ∨
      (formatOf op = some .P ∧ encode i = wordP op n) := by
  have hop : op = BitVec.ofNat 8 op.toNat := by simp
  unfold commandOf at h
  split at h <;> cases h <;> next hv => rw [hv] at hop; subst hop; simp [formatOf, encode, opcode]

theorem decode_ok {c : Word} {i : Instr} (h : decode c = .ok i) :
    illegality c = none ∧ commandOf (opField c) (idxField c) (sizeField c) = some i := by
  unfold decode at h
  split at h
  · cases h
  · next hl =>
    split at h
    · next hc => exact ⟨hl, by rw [hc]; cases h; rfl⟩
    · cases h

/-- A word that decodes to a command is that command's word: no bit of it is dropped (R97). -/
theorem encode_of_decode {c : Word} {i : Instr} (h : decode c = .ok i) : encode i = c := by
  obtain ⟨hl, hc⟩ := decode_ok h
  unfold illegality at hl
  rcases encode_of_commandOf hc with ⟨hf, he⟩ | ⟨hf, he⟩ | ⟨hf, he⟩ <;> rw [hf] at hl <;> rw [he]
  · exact wordN_opField (by simpa using hl)
  · exact wordS_fields (by simpa using hl)
  · refine wordP_fields ?_
    by_contra hz
    simp only [if_pos hz, reduceCtorEq] at hl

end Sys2Proof

namespace Sys2Proof.Machine

/-! ### What a command can do -/

/-- The state in which command `i` ends with an error: LDBLK and LDKEY have consumed the hex port, every other command has written nothing (R113, R114, R226). -/
def consumed (i : Instr) (s : State) : State :=
  match i with
  | .ldblk => clearHexPort s
  | .ldkey _ => clearHexPort s
  | _ => s

/-- What command `i` may have written to the state `s` when it succeeds, STATUS.ERR and LASTOP apart. -/
inductive Writes (i : Instr) (s : State) : State → Prop
  /-- data registers, PT_SIZE to a legal size or not at all -/
  | data (b : Block) (ks : Vector Word 8) (w : Wide) (p : Vector Byte 256) (n : BitVec 9)
      (size : s.ptSize.toNat ≤ 256 → n.toNat ≤ 256) :
      Writes i s { s with blk := b, key := ks, w := w, pt := p, ptSize := n }
  /-- the hex port consumed, and what it held loaded -/
  | hexPort (b : Block) (ks : Vector Word 8) : Writes i s { clearHexPort s with blk := b, key := ks }
  /-- the seed port emptied -/
  | seedPort : Writes i s (clearSeedPort s)
  /-- EANY cleared -/
  | stickyError (only : i = .clrErr) : Writes i s { s with eany := false }

/-- The next states command `i` may answer in state `s` (R225, R226). -/
inductive Ends (i : Instr) (s : State) : State → Prop
  | ok {u : State} (h : Writes i s u) : Ends i s { u with err := 0, lastop := opcode i }
  | error {e : ErrorCode} (h : mayRaise (errorCode e) (opcode i) = true) : Ends i s (raiseAt (opcode i) e (consumed i s))

theorem Writes.nothing (i : Instr) (s : State) : Writes i s s := .data s.blk s.key s.w s.pt s.ptSize id

theorem Writes.block (i : Instr) (s : State) (b : Block) : Writes i s { s with blk := b } :=
  .data b s.key s.w s.pt s.ptSize id

theorem Writes.wide (i : Instr) (s : State) (w : Wide) : Writes i s { s with w := w } :=
  .data s.blk s.key w s.pt s.ptSize id

theorem Ends.errorIn {i : Instr} {s u : State} {e : ErrorCode} (h : mayRaise (errorCode e) (opcode i) = true)
    (hu : consumed i s = u) : Ends i s (raiseAt (opcode i) e u) := hu ▸ .error h

/-- The commands that read the table as a whole and write BLK (R132). -/
def BlockCommand (i : Instr) : Prop := i = .enc ∨ i = .dec ∨ i = .perm ∨ i = .invPerm

/-- A block command runs `blockCommand`, with a function of the keys, the table and the block. -/
theorem exec_blockCommand {i : Instr} (hi : BlockCommand i) :
    ∃ f : Vector Word 8 → List Byte → Block → Block, ∀ s, exec i s = blockCommand i (f s.key) s := by
  rcases hi with rfl | rfl | rfl | rfl
  · exact ⟨encrypt Config.segTransform.toSegMaps, fun _ => rfl⟩
  · exact ⟨decrypt Config.segTransform.toSegMaps, fun _ => rfl⟩
  · exact ⟨fun _ T B => applyPerm B T, fun _ => rfl⟩
  · exact ⟨fun _ T B => applyPerm B (invertTable T), fun _ => rfl⟩

theorem BlockCommand.mayRaise {i : Instr} (hi : BlockCommand i) :
    mayRaise (errorCode .lengthMismatch) (opcode i) = true ∧ mayRaise (errorCode .notPermutation) (opcode i) = true := by
  rcases hi with rfl | rfl | rfl | rfl <;> decide

theorem BlockCommand.consumed {i : Instr} (hi : BlockCommand i) (s : State) : consumed i s = s := by
  rcases hi with rfl | rfl | rfl | rfl <;> rfl

theorem BlockCommand.exec_ends {i : Instr} (hi : BlockCommand i) (s : State) : ∃ t, exec i s = .next t ∧ Ends i s t := by
  obtain ⟨f, hf⟩ := exec_blockCommand hi
  rw [hf]
  rcases blockCommand_cases i (f s.key) s with h | h | h <;> rw [h]
  · exact ⟨_, rfl, .errorIn hi.mayRaise.1 (hi.consumed s)⟩
  · exact ⟨_, rfl, .errorIn hi.mayRaise.2 (hi.consumed s)⟩
  · exact ⟨_, rfl, .ok (.block i s _)⟩

/-- Every command ends in every state, in one of the ways of `Ends`. -/
theorem exec_ends (i : Instr) (s : State) : ∃ t, exec i s = .next t ∧ Ends i s t := by
  cases i
  case nop => exact ⟨_, rfl, .ok (.nothing _ s)⟩
  case clrHex => exact ⟨_, rfl, .ok (.hexPort s.blk s.key)⟩
  case clrSeed => exact ⟨_, rfl, .ok .seedPort⟩
  case clrErr => exact ⟨_, rfl, .ok (.stickyError rfl)⟩
  case kmix k => exact ⟨_, rfl, .ok (.block _ s _)⟩
  case expand k => exact ⟨_, rfl, .ok (.wide _ s _)⟩
  case subst k => exact ⟨_, rfl, .ok (.block _ s _)⟩
  case rsubst k => exact ⟨_, rfl, .ok (.wide _ s _)⟩
  case rexpand k => exact ⟨_, rfl, .ok (.block _ s _)⟩
  case enc => exact BlockCommand.exec_ends (.inl rfl) s
  case dec => exact BlockCommand.exec_ends (.inr (.inl rfl)) s
  case perm => exact BlockCommand.exec_ends (.inr (.inr (.inl rfl))) s
  case invPerm => exact BlockCommand.exec_ends (.inr (.inr (.inr rfl))) s
  case ldblk =>
    simp only [exec, execLdblk]
    split
    · exact ⟨_, rfl, .error (e := .format) rfl⟩
    · exact ⟨_, rfl, .error (e := .blockSize) rfl⟩
    · exact ⟨_, rfl, .ok (.hexPort _ s.key)⟩
  case ldkey k =>
    simp only [exec, execLdkey]
    split
    · exact ⟨_, rfl, .error (e := .format) rfl⟩
    · exact ⟨_, rfl, .error (e := .keySegSize) rfl⟩
    · exact ⟨_, rfl, .ok (.hexPort s.blk _)⟩
  case deriveKey =>
    simp only [exec, execDeriveKey]
    split
    · exact ⟨_, rfl, .error (e := .seed) rfl⟩
    · exact ⟨_, rfl, .ok (.data s.blk _ s.w s.pt s.ptSize id)⟩
  case derivePerm n =>
    simp only [exec, execDerivePerm]
    split
    · exact ⟨_, rfl, .error (e := .illegalCmd) rfl⟩
    · next hn =>
      split
      · exact ⟨_, rfl, .error (e := .seed) rfl⟩
      · exact ⟨_, rfl, .ok (.data s.blk s.key s.w _ n fun _ => by omega)⟩
  case invert =>
    simp only [exec, execInvert]
    split
    · exact ⟨_, rfl, .ok (.data s.blk s.key s.w _ s.ptSize id)⟩
    · exact ⟨_, rfl, .error (e := .notPermutation) rfl⟩

theorem ends_of_exec {i : Instr} {s t : State} (h : exec i s = .next t) : Ends i s t := by
  obtain ⟨u, hu, he⟩ := exec_ends i s
  rw [hu, Host.Outcome.next.injEq] at h
  exact h ▸ he

@[simp] theorem consumed_eany (i : Instr) (s : State) : (consumed i s).eany = s.eany := by
  cases i <;> rfl

theorem Ends.lastop {i : Instr} {s t : State} (h : Ends i s t) : t.lastop = opcode i := by
  cases h <;> rfl

/-- EANY, once 1, is cleared by no command but CLRERR (R211). -/
theorem Ends.clears_eany {i : Instr} {s t : State} (h : Ends i s t) (hs : s.eany = true) (ht : t.eany = false) :
    i = .clrErr := by
  cases h with
  | error => simp at ht
  | ok hw =>
    cases hw with
    | stickyError only => exact only
    | data => simp [hs] at ht
    | hexPort => simp [hs] at ht
    | seedPort => simp [hs] at ht

/-! ### What a step can do -/

/-- The ways a step leads from `s` to a next state: which event it takes from the host's list, and what that event does (R60, R70, R96). -/
inductive Steps (s : State) : State → Prop
  | idle (hb : s.bus = []) : Steps s s
  | read {off : Nat} {rest : List BusEvent} (hb : s.bus = .read 4 off :: rest) :
      Steps s { s with bus := rest, reads := readReg (regAt off) s :: s.reads }
  | write {off : Nat} {v : Word} {rest : List BusEvent} (hb : s.bus = .write 4 off v :: rest) (hoff : off ≠ 0x000) :
      Steps s (writeReg (regAt off) v { s with bus := rest })
  | command {c : Word} {i : Instr} {rest : List BusEvent} {t : State} (hb : s.bus = .write 4 0x000 c :: rest)
      (hd : decode c = .ok i) (ht : exec i { s with bus := rest } = .next t) : Steps s t
  | illegal {c : Word} {e : DecodeError} {rest : List BusEvent} (hb : s.bus = .write 4 0x000 c :: rest)
      (hd : decode c = .error e) : Steps s (raiseAt (opField c) .illegalCmd { s with bus := rest })
  | reset {rest : List BusEvent} (hb : s.bus = .reset :: rest) :
      Steps s (State.afterReset (s.resets + 1) rest s.reads)

theorem readReg_withBus (r : Reg) (b : List BusEvent) (s : State) : readReg r { s with bus := b } = readReg r s := by
  cases r <;> rfl

theorem busRead_next {width off : Nat} {s t : State} (h : busRead width off s = .next t) :
    width = 4 ∧ t = { s with reads := readReg (regAt off) s :: s.reads } := by
  cases hr : accessRefusal width off with
  | some r => simp [busRead, hr] at h
  | none =>
    have hl := (accessRefusal_none_iff width off).mp hr
    rw [busRead_legal hl, Host.Outcome.next.injEq] at h
    exact ⟨hl.1, h.symm⟩

theorem busWrite_next {width off : Nat} {v : Word} {s t : State} (h : busWrite width off v s = .next t) :
    width = 4 ∧ (off = 0x000 ∧ runCommand v s = .next t ∨ off ≠ 0x000 ∧ t = writeReg (regAt off) v s) := by
  cases hr : accessRefusal width off with
  | some r => simp [busWrite, hr] at h
  | none =>
    have hl := (accessRefusal_none_iff width off).mp hr
    rw [busWrite_legal hl] at h
    refine ⟨hl.1, ?_⟩
    split at h
    · next hoff => exact .inl ⟨hoff, h⟩
    · next hoff => exact .inr ⟨hoff, (Host.Outcome.next.inj h).symm⟩

/-- A step that answers a next state is one of `Steps`. -/
theorem steps_of_step {s t : State} (h : step s = .next t) : Steps s t := by
  cases hb : s.bus with
  | nil =>
    rw [step_idle hb, Host.Outcome.next.injEq] at h
    exact h ▸ .idle hb
  | cons e rest =>
    rw [step_cons hb] at h
    cases e with
    | reset =>
      simp only [perform, Host.Outcome.next.injEq] at h
      exact h ▸ .reset hb
    | read width off =>
      obtain ⟨rfl, rfl⟩ := busRead_next h
      rw [readReg_withBus]
      exact .read hb
    | write width off v =>
      obtain ⟨rfl, ⟨rfl, hrun⟩ | ⟨hoff, rfl⟩⟩ := busWrite_next h
      · cases hd : decode v with
        | ok i => exact .command hb hd (runCommand_legal hd _ ▸ hrun)
        | error e =>
          rw [runCommand_illegal hd, illegalWord, Host.Outcome.next.injEq] at hrun
          exact hrun ▸ .illegal hb hd
      · exact .write hb hoff

/-! ### The invariant -/

theorem mayRaise_ok (i : Instr) : mayRaise 0 (opcode i) = true := by
  cases i <;> rfl

theorem State.Inv.withData {s : State} (h : s.Inv) (b : Block) (ks : Vector Word 8) (w : Wide) (p : Vector Byte 256)
    {n : BitVec 9} (hn : n.toNat ≤ 256) : State.Inv { s with blk := b, key := ks, w := w, pt := p, ptSize := n } :=
  { h with ptSize_le := hn }

theorem State.Inv.withHost {s : State} (h : s.Inv) (b : List BusEvent) (r : List Word) :
    State.Inv { s with bus := b, reads := r } := { h with }

theorem clearHexPort_inv {s : State} (h : s.Inv) : (clearHexPort s).Inv :=
  { h with
    hexBad_counted := by simp
    hexDig_clear := by simp }

theorem clearSeedPort_inv {s : State} (h : s.Inv) : (clearSeedPort s).Inv :=
  { h with
    seedLen_le := by simp
    seed_clear := by simp
    seed_scalar := by simp [isScalar] }

theorem raiseAt_inv {s : State} (h : s.Inv) {op : BitVec 8} {e : ErrorCode} (he : mayRaise (errorCode e) op = true) :
    (raiseAt op e s).Inv :=
  { h with
    err_lastop := he
    err_eany := fun _ => rfl }

/-- Success keeps the invariant, whatever it makes of EANY. -/
theorem State.Inv.succeed {s : State} (h : s.Inv) (i : Instr) (a : Bool) :
    State.Inv { s with err := 0, eany := a, lastop := opcode i } :=
  { h with
    err_lastop := mayRaise_ok i
    err_eany := fun h0 => absurd rfl h0 }

theorem consumed_inv (i : Instr) {s : State} (h : s.Inv) : (consumed i s).Inv := by
  cases i
  case ldblk => exact clearHexPort_inv h
  case ldkey => exact clearHexPort_inv h
  all_goals exact h

theorem Ends.inv {i : Instr} {s t : State} (h : Ends i s t) (hs : s.Inv) : t.Inv := by
  cases h with
  | error he => exact raiseAt_inv (consumed_inv i hs) he
  | ok hw =>
    cases hw with
    | data b ks w p n size => exact (hs.withData b ks w p (size hs.ptSize_le)).succeed i s.eany
    | hexPort b ks =>
      have hc := clearHexPort_inv hs
      exact (hc.withData b ks s.w s.pt hs.ptSize_le).succeed i s.eany
    | seedPort => exact (clearSeedPort_inv hs).succeed i s.eany
    | stickyError => exact hs.succeed i false

theorem hexPush_inv (v : Word) {s : State} (h : s.Inv) : (hexPush v s).Inv :=
  { h with
    hexBad_counted := fun _ h0 => by
      have hcount := hexPush_hexCnt v s
      have hzero : (hexPush v s).hexCnt.toNat = 0 := by rw [h0]; rfl
      omega
    hexDig_clear := fun k hk hle => by
      rw [hexPush_hexCnt] at hle
      rw [hexPush_hexDig v s k hk, if_neg (by omega)]
      exact h.hexDig_clear k hk (by omega) }

/-- A Unicode scalar value fits in the 21 bits of a code point. -/
theorem isScalar_codePoint {v : Word} (h : isScalar v = true) : isScalar ((v.setWidth 21).setWidth 32) = true := by
  have hv : v.toNat < 2 ^ 21 := by
    simp only [isScalar, Bool.or_eq_true, Bool.and_eq_true, decide_eq_true_eq] at h
    omega
  have : (v.setWidth 21).setWidth 32 = v := by
    apply BitVec.eq_of_toNat_eq
    simp only [BitVec.toNat_setWidth, Nat.mod_eq_of_lt hv]
    omega
  rwa [this]

theorem seedPush_inv (v : Word) {s : State} (h : s.Inv) : (seedPush v s).Inv := by
  by_cases hr : isScalar v = false ∨ s.seedLen.toNat = 256
  · rw [seedPush_refused hr]
    exact { h with }
  · obtain ⟨hv, hl⟩ := not_or.mp hr
    rw [Bool.not_eq_false] at hv
    have hlen := h.seedLen_le
    have hnext : (s.seedLen + 1).toNat = s.seedLen.toNat + 1 := by
      rw [BitVec.toNat_add]
      simp
      omega
    rw [seedPush_taken hv hl]
    exact { h with
      seedLen_le := by simp only [hnext]; omega
      seed_clear := fun k hk hle => by
        simp only [hnext] at hle
        simp only [Vector.getElem_setIfInBounds, show s.seedLen.toNat ≠ k by omega, if_false]
        exact h.seed_clear k hk (by omega)
      seed_scalar := fun k hk => by
        simp only [Vector.getElem_setIfInBounds]
        split
        · exact isScalar_codePoint hv
        · exact h.seed_scalar k hk }

theorem writeReg_inv (r : Reg) (v : Word) {s : State} (h : s.Inv) : (writeReg r v s).Inv := by
  cases r
  case hexPush => exact hexPush_inv v h
  case seedPush => exact seedPush_inv v h
  case ptSize =>
    simp only [writeReg]
    split
    · next hv => exact { h with ptSize_le := by simp; omega }
    · exact h
  all_goals exact { h with }

theorem afterReset_inv (r : Nat) (bus : List BusEvent) (reads : List Word) : (State.afterReset r bus reads).Inv where
  ptSize_le := by simp
  seedLen_le := by simp
  err_lastop := rfl
  err_eany := by simp
  hexBad_counted := by simp
  hexDig_clear := by simp
  seed_clear := by simp
  seed_scalar := by simp [isScalar]

/-- Settles O60, by the ways a step can lead to a next state. -/
theorem stepKeepsInvariant : Obligations.StepKeepsInvariant := by
  intro s t hs h
  cases steps_of_step h with
  | idle => exact hs
  | read => exact hs.withHost _ _
  | write => exact writeReg_inv _ _ (hs.withHost _ s.reads)
  | command _ _ ht => exact (ends_of_exec ht).inv (hs.withHost _ s.reads)
  | illegal => exact raiseAt_inv (hs.withHost _ s.reads) rfl
  | reset => exact afterReset_inv _ _ _

/-- Settles O59: the reset state is the state after reset number 0. -/
theorem invariantHoldsAtReset : Obligations.InvariantHoldsAtReset := afterReset_inv 0 [] []

/-- Settles O50, from the ways a command ends. -/
theorem everyCommandCompletes : Obligations.EveryCommandCompletes := by
  intro i s
  obtain ⟨t, ht, he⟩ := exec_ends i s
  exact ⟨t, ht, he.lastop⟩

/-- Settles O55, by the ways a step can lead to a next state. -/
theorem onlyClrErrAndResetClearEany : Obligations.OnlyClrErrAndResetClearEany := by
  intro s t h hs ht
  cases steps_of_step h with
  | idle => simp [hs] at ht
  | read => simp [hs] at ht
  | write =>
    obtain ⟨-, heany, -⟩ := writeReg_keeps (regAt _) _ _
    rw [heany] at ht
    simp [hs] at ht
  | illegal => simp at ht
  | reset hb => exact ⟨_, _, hb, .inr rfl⟩
  | command hb hd hx =>
    obtain rfl := (ends_of_exec hx).clears_eany hs ht
    obtain rfl := encode_of_decode hd
    exact ⟨_, _, hb, .inl rfl⟩

/-! ### Accesses to a register -/

/-- The offset of a register is aligned and inside the window (R62). -/
theorem regOffset_legal {r : Reg} {off : Nat} (h : regOffset r = some off) : off % 4 = 0 ∧ off < 0x800 := by
  cases r <;> simp only [regOffset, Option.some.injEq, reduceCtorEq] at h <;> omega

theorem step_read {s : State} {r : Reg} {off : Nat} {rest : List BusEvent} (hb : s.bus = .read 4 off :: rest)
    (hr : regOffset r = some off) : step s = .next { s with bus := rest, reads := readReg r s :: s.reads } := by
  rw [step_cons hb, perform, busRead_legal ⟨rfl, regOffset_legal hr⟩, regAt_regOffset r off hr, readReg_withBus]

theorem step_write {s : State} {r : Reg} {off : Nat} {v : Word} {rest : List BusEvent}
    (hb : s.bus = .write 4 off v :: rest) (hr : regOffset r = some off) (hcmd : off ≠ 0x000) :
    step s = .next (writeReg r v { s with bus := rest }) := by
  rw [step_cons hb, perform, busWrite_legal ⟨rfl, regOffset_legal hr⟩, if_neg hcmd, regAt_regOffset r off hr]

/-- Settles O10: each clause is the read of the register that has the offset. -/
theorem dataRegisterReads : Obligations.DataRegisterReads := by
  intro s off rest hb
  refine ⟨?_, ?_, ?_, ?_, ?_, ?_⟩
  · rintro i rfl
    exact step_read (r := .blkW i) hb rfl
  · rintro i rfl
    exact step_read (r := .key i) hb rfl
  · rintro rfl
    exact step_read (r := .wLo) hb rfl
  · rintro rfl
    exact step_read (r := .wHi) hb rfl
  · rintro rfl
    exact step_read (r := .ptSize) hb rfl
  · rintro k rfl
    exact step_read (r := .pt k) hb rfl

/-! ### The fields of the status words -/

theorem getLsbD_append_above {m n : Nat} (x : BitVec m) (y : BitVec n) (k : Nat) :
    (x ++ y).getLsbD (n + k) = x.getLsbD k := by
  simp [BitVec.getLsbD_append]

theorem getLsbD_append_ofBool {m : Nat} (x : BitVec m) (b : Bool) : (x ++ BitVec.ofBool b).getLsbD 0 = b := by
  rw [BitVec.getLsbD_append]
  cases b <;> rfl

/-- The fields of STATUS (R26). -/
theorem statusWord_fields (s : State) :
    (statusWord s).extractLsb' 0 4 = s.err ∧ (statusWord s).getLsbD 4 = s.eany ∧ (statusWord s).extractLsb' 5 3 = 0 ∧
      (statusWord s).extractLsb' 8 8 = s.lastop ∧ (statusWord s).extractLsb' 16 16 = 0 := by
  have low := @extract_append_low
  have high := @extract_append_high
  refine ⟨low _ s.err, ?_, ?_, ?_, ?_⟩
  · exact (getLsbD_append_above _ s.err 0).trans (getLsbD_append_ofBool _ s.eany)
  · exact (high _ s.err 1 3).trans <| (high _ (BitVec.ofBool s.eany) 0 3).trans (low _ 0#3)
  · exact (high _ s.err 4 8).trans <| (high _ (BitVec.ofBool s.eany) 3 8).trans <| (high _ 0#3 0 8).trans (low _ s.lastop)
  · exact (high _ s.err 12 16).trans <| (high _ (BitVec.ofBool s.eany) 11 16).trans <| (high _ 0#3 8 16).trans <|
      (high _ s.lastop 0 16).trans BitVec.extractLsb'_eq_self

/-- The fields of HEX_STAT (R27). -/
theorem hexStatWord_fields (s : State) :
    (hexStatWord s).extractLsb' 0 16 = s.hexCnt ∧ (hexStatWord s).getLsbD 16 = s.hexBad ∧
      (hexStatWord s).extractLsb' 17 15 = 0 := by
  have low := @extract_append_low
  have high := @extract_append_high
  refine ⟨low _ s.hexCnt, ?_, ?_⟩
  · exact (getLsbD_append_above _ s.hexCnt 0).trans (getLsbD_append_ofBool _ s.hexBad)
  · exact (high _ s.hexCnt 1 15).trans <| (high _ (BitVec.ofBool s.hexBad) 0 15).trans BitVec.extractLsb'_eq_self

/-- The fields of SEED_STAT (R28). -/
theorem seedStatWord_fields (s : State) :
    (seedStatWord s).extractLsb' 0 9 = s.seedLen ∧ (seedStatWord s).extractLsb' 9 7 = 0 ∧
      (seedStatWord s).getLsbD 16 = s.seedBad ∧ (seedStatWord s).extractLsb' 17 15 = 0 := by
  have low := @extract_append_low
  have high := @extract_append_high
  refine ⟨low _ s.seedLen, ?_, ?_, ?_⟩
  · exact (high _ s.seedLen 0 7).trans (low _ 0#7)
  · exact (getLsbD_append_above _ s.seedLen 7).trans <| (getLsbD_append_above _ 0#7 0).trans
      (getLsbD_append_ofBool _ s.seedBad)
  · exact (high _ s.seedLen 8 15).trans <| (high _ 0#7 1 15).trans <| (high _ (BitVec.ofBool s.seedBad) 0 15).trans
      BitVec.extractLsb'_eq_self

/-- Settles O11, from the fields of each status word. -/
theorem statusRegisterReads : Obligations.StatusRegisterReads := by
  intro s off rest hb
  refine ⟨?_, ?_, ?_⟩
  · rintro rfl
    exact ⟨_, step_read (r := .status) hb rfl, statusWord_fields s⟩
  · rintro rfl
    exact ⟨_, step_read (r := .hexStat) hb rfl, hexStatWord_fields s⟩
  · rintro rfl
    exact ⟨_, step_read (r := .seedStat) hb rfl, seedStatWord_fields s⟩

/-! ### The hex views -/

/-- The code of a digit's lowercase character (R29). -/
theorem toNat_hexchar (d : Nibble) : (hexchar d).toNat = if d.toNat ≤ 9 then 0x30 + d.toNat else 0x57 + d.toNat := by
  revert d; decide

theorem keyHex_index (i j : Fin 8) : (8 * i.val + j.val) / 8 = i.val ∧ Fin.ofNat 8 (8 * i.val + j.val) = j := by
  constructor
  · omega
  · apply Fin.ext
    simp only [Fin.ofNat]
    omega

/-- Settles O12: both views show `hexchar` of a digit. -/
theorem hexViewReads : Obligations.HexViewReads := by
  intro s off rest hb
  constructor
  · rintro k rfl
    exact ⟨_, step_read (r := .blkHex k) hb rfl, _, rfl, toNat_hexchar _⟩
  · rintro i j rfl
    obtain ⟨hi, hj⟩ := keyHex_index i j
    have hread : readReg (.keyHex ⟨8 * i.val + j.val, by omega⟩) s = hexchar (wordDigit s.key[i] j) := by
      simp only [readReg, hi, hj]
      rfl
    exact ⟨_, hread ▸ step_read (r := .keyHex ⟨8 * i.val + j.val, by omega⟩) hb rfl, _, rfl, toNat_hexchar _⟩

/-! ### Writes to a data register -/

/-- Settles O15: each clause is the write to the register that has the offset. -/
theorem dataRegisterWrites : Obligations.DataRegisterWrites := by
  intro s off v rest hb
  refine ⟨?_, ?_, ?_, ?_, ?_, ?_, ?_⟩
  · rintro i rfl
    exact ⟨_, step_write (r := .blkW i) hb rfl (by omega), fun j => seg_setSeg s.blk i j v⟩
  · rintro i rfl
    refine ⟨_, step_write (r := .key i) hb rfl (by omega), fun j => ?_⟩
    simp [Vector.getElem_set, Fin.ext_iff, eq_comm]
  · rintro rfl
    exact ⟨_, step_write (r := .wLo) hb rfl (by omega), extract_append_low _ v,
      (extract_append_high (s.w.extractLsb' 32 16) v 0 16).trans BitVec.extractLsb'_eq_self⟩
  · rintro rfl
    exact ⟨_, step_write (r := .wHi) hb rfl (by omega),
      (extract_append_high (v.extractLsb' 0 16) (s.w.extractLsb' 0 32) 0 16).trans BitVec.extractLsb'_eq_self,
      extract_append_low _ (s.w.extractLsb' 0 32)⟩
  · rintro rfl hv
    refine ⟨v.setWidth 9, ?_, ?_⟩
    · rw [step_write (r := .ptSize) hb rfl (by omega), writeReg, if_pos hv]
    · rw [BitVec.toNat_setWidth]
      omega
  · rintro rfl hv
    rw [step_write (r := .ptSize) hb rfl (by omega), writeReg, if_neg (by omega)]
  · rintro k rfl
    refine ⟨_, step_write (r := .pt k) hb rfl (by omega), fun j => ?_⟩
    simp [Vector.getElem_set, Fin.ext_iff, eq_comm]

/-! ### The entries of the table above its size -/

/-- The table `p` agrees with PT in the entries that are the current table (R24). -/
def AgreesBelowSize (s : State) (p : Vector Byte 256) : Prop :=
  ∀ k : Fin 256, k.val < s.ptSize.toNat → p[k] = s.pt[k]

theorem currentTable_withTable {s : State} {p : Vector Byte 256} (hp : AgreesBelowSize s p) :
    currentTable { s with pt := p } = currentTable s := by
  apply List.ext_getElem
  · simp [currentTable]
  · intro k hk hk'
    have hk2 : k < s.ptSize.toNat ∧ k < 256 := by simpa [currentTable] using hk
    rw [getElem_currentTable _ k hk hk2.2, getElem_currentTable _ k hk' hk2.2]
    exact hp ⟨k, hk2.2⟩ hk2.1

theorem tableCheck_withTable {s : State} {p : Vector Byte 256} (hp : AgreesBelowSize s p) :
    tableCheck { s with pt := p } = tableCheck s := by
  unfold tableCheck
  rw [currentTable_withTable hp]

/-- A block command reads no entry above PT_SIZE, and writes none. -/
theorem blockCommand_withTable {i : Instr} {f : List Byte → Block → Block} {s t : State} {p : Vector Byte 256}
    (hp : AgreesBelowSize s p) (h : blockCommand i f s = .next t) :
    blockCommand i f { s with pt := p } = .next { t with pt := p } := by
  unfold blockCommand at h ⊢
  rw [tableCheck_withTable hp, currentTable_withTable hp]
  split at h <;> cases h <;> rfl

/-- What a command answers when PT holds `p` and not the table of `s`: the next state `t` but for the entries of PT that are
in neither state's current table, which stay. -/
def AnswersAlike (i : Instr) (s t : State) (p : Vector Byte 256) : Prop :=
  ∃ q : Vector Byte 256, exec i { s with pt := p } = .next { t with pt := q } ∧
    ∀ k : Fin 256, ((k.val < s.ptSize.toNat ∨ k.val < t.ptSize.toNat) → q[k] = t.pt[k]) ∧
      (s.ptSize.toNat ≤ k.val → t.ptSize.toNat ≤ k.val → q[k] = p[k] ∧ t.pt[k] = s.pt[k])

/-- A command that writes neither PT nor PT_SIZE need only carry `p` over. -/
theorem answersAlike_of_keeps {i : Instr} {s t : State} {p : Vector Byte 256} (hp : AgreesBelowSize s p)
    (hpt : t.pt = s.pt) (hsize : t.ptSize = s.ptSize) (h : exec i { s with pt := p } = .next { t with pt := p }) :
    AnswersAlike i s t p := by
  refine ⟨p, h, fun k => ⟨fun hk => ?_, fun _ _ => ⟨rfl, by rw [hpt]⟩⟩⟩
  rw [hpt]
  exact hp k (by simpa [hsize] using hk)

/-- A block command reads the current table and writes none of PT (R132). -/
theorem BlockCommand.answersAlike {i : Instr} (hi : BlockCommand i) {s t : State} {p : Vector Byte 256}
    (hp : AgreesBelowSize s p) (h : exec i s = .next t) : AnswersAlike i s t p := by
  obtain ⟨f, hf⟩ := exec_blockCommand hi
  rw [hf] at h
  have frame := blockCommand_frame h
  exact answersAlike_of_keeps hp (by rw [frame]) (by rw [frame]) ((hf _).trans (blockCommand_withTable hp h))

/-- A command that stores a table `T`, which is the new current table, stores it over `p` too. -/
theorem answersAlike_of_stores {i : Instr} {s t : State} {p : Vector Byte 256} (hp : AgreesBelowSize s p) (T : List Byte)
    (hpt : t.pt = storeTable T s.pt) (hlen : ∀ k, k < 256 → (k < T.length ↔ k < t.ptSize.toNat))
    (h : exec i { s with pt := p } = .next { t with pt := storeTable T p }) : AnswersAlike i s t p := by
  refine ⟨storeTable T p, h, fun k => ?_⟩
  have hk := hlen k k.isLt
  simp only [hpt, Fin.getElem_fin, getElem_storeTable, hk]
  constructor
  · intro hbelow
    split
    · rfl
    · next hnew => exact hp k (hbelow.resolve_right hnew)
  · intro _ hnew
    simp only [dif_neg (Nat.not_lt.mpr hnew), and_self]

/-- INVERT reads and writes the current table only (R140). -/
theorem invert_answersAlike {s t : State} {p : Vector Byte 256} (hp : AgreesBelowSize s p)
    (h : exec .invert s = .next t) : AnswersAlike .invert s t p := by
  have hT := currentTable_withTable hp
  simp only [exec, execInvert] at h
  split at h
  · next hperm =>
    cases h
    refine answersAlike_of_stores hp (invertTable (currentTable s)) rfl (fun k hk => ?_) ?_
    · simp [currentTable, hk]
    · simp only [exec, execInvert, hT, hperm, if_true, finish]
  · next hperm =>
    cases h
    refine answersAlike_of_keeps hp rfl rfl ?_
    simp only [exec, execInvert, hT, if_neg hperm]
    rfl

/-- DERIVEPERM reads no entry of PT (R134). -/
theorem derivePerm_answersAlike {n : BitVec 9} {s t : State} {p : Vector Byte 256} (hp : AgreesBelowSize s p)
    (h : exec (.derivePerm n) s = .next t) : AnswersAlike (.derivePerm n) s t p := by
  simp only [exec, execDerivePerm] at h
  split at h
  · next hn =>
    cases h
    exact answersAlike_of_keeps hp rfl rfl (if_pos hn)
  · next hn =>
    split at h
    · next hbad =>
      cases h
      exact answersAlike_of_keeps hp rfl rfl ((if_neg hn).trans (if_pos hbad))
    · next hbad =>
      cases h
      exact answersAlike_of_stores hp (shuffleTable (seedSum s) n.toNat) rfl (fun k _ => by simp)
        ((if_neg hn).trans (if_neg hbad))

theorem hexCheck_withTable (m : Nat) (s : State) (p : Vector Byte 256) :
    hexCheck m { s with pt := p } = hexCheck m s := rfl

/-- Settles O33, command by command. -/
theorem entriesAboveSizeAreNotRead : Obligations.EntriesAboveSizeAreNotRead := by
  intro i s t p hp h
  cases i
  case enc => exact BlockCommand.answersAlike (.inl rfl) hp h
  case dec => exact BlockCommand.answersAlike (.inr (.inl rfl)) hp h
  case perm => exact BlockCommand.answersAlike (.inr (.inr (.inl rfl))) hp h
  case invPerm => exact BlockCommand.answersAlike (.inr (.inr (.inr rfl))) hp h
  case invert => exact invert_answersAlike hp h
  case derivePerm n => exact derivePerm_answersAlike hp h
  case ldblk =>
    simp only [exec, execLdblk] at h
    split at h <;> next hc =>
      cases h
      refine answersAlike_of_keeps hp rfl rfl ?_
      simp only [exec, execLdblk, hexCheck_withTable, hc]
      rfl
  case ldkey k =>
    simp only [exec, execLdkey] at h
    split at h <;> next hc =>
      cases h
      refine answersAlike_of_keeps hp rfl rfl ?_
      simp only [exec, execLdkey, hexCheck_withTable, hc]
      rfl
  case deriveKey =>
    simp only [exec, execDeriveKey] at h
    split at h
    · next hbad =>
      cases h
      exact answersAlike_of_keeps hp rfl rfl (if_pos hbad)
    · next hbad =>
      cases h
      exact answersAlike_of_keeps hp rfl rfl (if_neg hbad)
  all_goals
    cases h
    exact answersAlike_of_keeps hp rfl rfl rfl

/-! ### The reset state -/

@[simp] theorem storeTable_nil (pt : Vector Byte 256) : storeTable [] pt = pt := by
  apply Vector.ext
  intro k hk
  simp [getElem_storeTable]

theorem currentTable_reset : currentTable State.reset = [] := by
  simp [currentTable, State.reset]

/-- Settles O57: PT_SIZE is 0 there, so the current table is empty, and the empty table is its own inverse. -/
theorem resetStateAndItsFirstCommands : Obligations.ResetStateAndItsFirstCommands := by
  refine ⟨rfl, ?_, ?_⟩
  · intro i hi
    obtain ⟨f, hf⟩ := exec_blockCommand hi
    rw [hf, blockCommand_length (by decide)]
    rfl
  · have hT : invertTable (currentTable State.reset) = [] := by rw [currentTable_reset]; rfl
    have hp : isPerm (currentTable State.reset) State.reset.ptSize.toNat = true := by rw [currentTable_reset]; rfl
    simp only [exec, execInvert, hp, if_true, hT, storeTable_nil]
    rfl

end Sys2Proof.Machine

namespace Sys2Proof.Machine

/-! ### What performing an event does, whatever is still on the host's list -/

/-- A command word runs to a next state, and the host's list stands beside it unused (R70, R96). -/
theorem runCommand_next (c : Word) (s : State) :
    ∃ t : State, ∀ b, runCommand c { s with bus := b } = .next { t with bus := b } := by
  cases hd : decode c with
  | ok i =>
    obtain ⟨t, ht, -⟩ := exec_ends i s
    exact ⟨t, fun b => (runCommand_legal hd _).trans (exec_withBus b ht)⟩
  | error => exact ⟨raiseAt (opField c) .illegalCmd s, fun b => runCommand_illegal hd _⟩

/-- A write that is not refused does what CMD or its register does, the host's list standing beside it unused (R60). -/
theorem busWrite_next_of_legal {width off : Nat} (h : width = 4 ∧ off % 4 = 0 ∧ off < 0x800) (v : Word) (s : State) :
    ∃ t : State, ∀ b, busWrite width off v { s with bus := b } = .next { t with bus := b } := by
  by_cases hoff : off = 0x000
  · obtain ⟨t, ht⟩ := runCommand_next v s
    exact ⟨t, fun b => by rw [busWrite_legal h, if_pos hoff, ht]⟩
  · exact ⟨writeReg (regAt off) v s, fun b => by rw [busWrite_legal h, if_neg hoff, writeReg_withBus]⟩

theorem legalEvent_read_iff (width off : Nat) :
    legalEvent (.read width off) = true ↔ width = 4 ∧ off % 4 = 0 ∧ off < 0x800 := by
  simp [legalEvent, and_assoc]

theorem legalEvent_write_iff (width off : Nat) (v : Word) :
    legalEvent (.write width off v) = true ↔ width = 4 ∧ off % 4 = 0 ∧ off < 0x800 := by
  simp [legalEvent, and_assoc]

/-- A legal event is performed in every state; it neither reads nor writes the host's list. -/
theorem perform_legal {e : BusEvent} (h : legalEvent e = true) (s : State) :
    ∃ t : State, ∀ b, perform e { s with bus := b } = .next { t with bus := b } := by
  cases e with
  | read width off =>
    have hl := (legalEvent_read_iff width off).mp h
    exact ⟨{ s with reads := readReg (regAt off) s :: s.reads }, fun b => by
      rw [perform, busRead_legal hl, readReg_withBus]⟩
  | write width off v => exact busWrite_next_of_legal ((legalEvent_write_iff width off v).mp h) v s
  | reset => exact ⟨State.afterReset (s.resets + 1) s.bus s.reads, fun _ => rfl⟩

theorem busRead_refused {width off : Nat} {r : Refusal} (h : accessRefusal width off = some r) (s : State) :
    busRead width off s = .refused r := by
  simp only [busRead, h]

theorem busWrite_refused {width off : Nat} {r : Refusal} (h : accessRefusal width off = some r) (v : Word) (s : State) :
    busWrite width off v s = .refused r := by
  simp only [busWrite, h]

/-- An access with one of the three faults has a refusal (R61, R65, R66). -/
theorem accessRefusal_some {width off : Nat} (h : ¬ (width = 4 ∧ off % 4 = 0 ∧ off < 0x800)) :
    ∃ r, accessRefusal width off = some r :=
  Option.ne_none_iff_exists'.mp fun hn => h ((accessRefusal_none_iff width off).mp hn)

/-- An illegal event is refused, under one name in every state. -/
theorem perform_illegal {e : BusEvent} (h : legalEvent e ≠ true) : ∃ r, ∀ s, perform e s = .refused r := by
  cases e with
  | read width off =>
    obtain ⟨r, hr⟩ := accessRefusal_some (mt (legalEvent_read_iff width off).mpr h)
    exact ⟨r, busRead_refused hr⟩
  | write width off v =>
    obtain ⟨r, hr⟩ := accessRefusal_some (mt (legalEvent_write_iff width off v).mpr h)
    exact ⟨r, busWrite_refused hr v⟩
  | reset => exact absurd rfl h

/-! ### Runs -/

theorem run_succ_next {s t : State} (h : step s = .next t) (k : Nat) : core.run (k + 1) s = core.run k t := by
  simp only [Host.Core.run, show core.step s = .next t from h]

theorem run_succ_refused {s : State} {r : Refusal} (h : step s = .refused r) (k : Nat) :
    core.run (k + 1) s = .refused r := by
  simp only [Host.Core.run, show core.step s = .refused r from h]

theorem performAll_cons_refused {e : BusEvent} {s : State} {r : Refusal} (h : perform e s = .refused r)
    (es : List BusEvent) : performAll (e :: es) s = .refused r := by
  simp only [performAll, h]

/-- Settles O7, by induction on the events: a legal one is the first step of both sides, an illegal one refuses both. -/
theorem runPerformsEventsInOrder : Obligations.RunPerformsEventsInOrder := by
  intro es
  induction es with
  | nil => exact fun _ => rfl
  | cons e es ih =>
    intro s
    have hstep : step { s with bus := e :: es } = perform e { s with bus := es } := step_cons rfl
    by_cases he : legalEvent e = true
    · obtain ⟨t, ht⟩ := perform_legal he s
      have hrun : core.run (es.length + 1) { s with bus := e :: es } = core.run es.length { t with bus := es } :=
        run_succ_next (hstep.trans (ht es)) _
      have hperform : performAll (e :: es) { s with bus := [] } = performAll es { t with bus := [] } :=
        performAll_cons_next (ht []) es
      exact hrun.trans ((ih t).trans hperform.symm)
    · obtain ⟨r, hr⟩ := perform_illegal he
      exact (run_succ_refused (hstep.trans (hr _)) _).trans (performAll_cons_refused (hr _) es).symm

/-! ### Legal and illegal accesses -/

/-- A legal event at the head of the host's list is performed in one step, which leaves the rest of the list. -/
theorem step_legal {s : State} {e : BusEvent} {rest : List BusEvent} (hb : s.bus = e :: rest)
    (he : legalEvent e = true) : ∃ t, step s = .next t ∧ t.bus = rest := by
  obtain ⟨t, ht⟩ := perform_legal he s
  exact ⟨_, (step_cons hb).trans (ht rest), rfl⟩

/-- Settles O8; the list of legal events is empty, or its head is performed and its rest is left. -/
theorem legalEventCompletes : Obligations.LegalEventCompletes := by
  intro s
  refine ⟨step_idle, fun e rest => step_legal, fun hsafe => ?_⟩
  cases hb : s.bus with
  | nil => exact ⟨s, step_idle hb, hsafe⟩
  | cons e rest =>
    rw [safeBus, hb, List.all_cons, Bool.and_eq_true] at hsafe
    obtain ⟨he, hrest⟩ := hsafe
    obtain ⟨t, ht, htb⟩ := step_legal hb he
    exact ⟨t, ht, by rwa [safeBus, htb]⟩

theorem step_refused {s : State} {width off : Nat} {v : Word} {rest : List BusEvent} {r : Refusal}
    (hb : s.bus = .read width off :: rest ∨ s.bus = .write width off v :: rest)
    (hr : accessRefusal width off = some r) : step s = .refused r := by
  rcases hb with hb | hb
  · exact (step_cons hb).trans (busRead_refused hr _)
  · exact (step_cons hb).trans (busWrite_refused hr v _)

/-- Settles O9: each fault alone is the one `accessRefusal` finds, and with any of them it finds one. -/
theorem illegalAccessIsRefused : Obligations.IllegalAccessIsRefused := by
  intro s width off v rest hb
  refine ⟨fun hw _ _ => ?_, fun hw ha _ => ?_, fun hw ha ho => ?_, fun h => ?_⟩
  · exact step_refused hb (if_pos hw)
  · exact step_refused hb (by rw [accessRefusal, if_neg (not_not.mpr hw), if_pos ha])
  · exact step_refused hb (by rw [accessRefusal, if_neg (not_not.mpr hw), if_neg (not_not.mpr ha), if_pos ho])
  · obtain ⟨r, hr⟩ := accessRefusal_some (width := width) (off := off) (by omega)
    exact ⟨r, step_refused hb hr⟩

/-- Settles O5: the write to CMD runs the word it decodes to. -/
theorem stepRunsDecodedCommand : Obligations.StepRunsDecodedCommand := by
  intro s c i rest hb hd
  rw [step_cons hb, perform, busWrite_cmd, runCommand_legal hd]

/-! ### Words that keep nothing, and registers of one direction -/

/-- A legal read answers what the window shows at its offset, whether a register has the offset or not (R62, R63). -/
theorem step_read_window {s : State} {off : Nat} {rest : List BusEvent} (hb : s.bus = .read 4 off :: rest)
    (h : off % 4 = 0 ∧ off < 0x800) :
    step s = .next { s with bus := rest, reads := readReg (regAt off) s :: s.reads } := by
  rw [step_cons hb, perform, busRead_legal ⟨rfl, h⟩, readReg_withBus]

theorem step_write_window {s : State} {off : Nat} {v : Word} {rest : List BusEvent}
    (hb : s.bus = .write 4 off v :: rest) (h : off % 4 = 0 ∧ off < 0x800) (hcmd : off ≠ 0x000) :
    step s = .next (writeReg (regAt off) v { s with bus := rest }) := by
  rw [step_cons hb, perform, busWrite_legal ⟨rfl, h⟩, if_neg hcmd]

/-- Settles O13: the map has `reserved` at these offsets. -/
theorem reservedWordsReadZeroIgnoreWrites : Obligations.ReservedWordsReadZeroIgnoreWrites := by
  rintro s off v rest ⟨halign, hranges⟩
  have hreg : regAt off = .reserved := regAt_reserved (by omega)
  constructor
  · intro hb
    rw [step_read_window hb (by omega), hreg]
    rfl
  · intro hb
    rw [step_write_window hb (by omega) (by omega), hreg]
    rfl

/-- Settles O14, register by register. -/
theorem readOnlyAndWriteOnlyRegisters : Obligations.ReadOnlyAndWriteOnlyRegisters := by
  intro s off v rest
  constructor
  · rintro (rfl | rfl | rfl | ⟨halign, hview⟩) hb
    · exact step_write (r := .status) hb rfl (by omega)
    · exact step_write (r := .hexStat) hb rfl (by omega)
    · exact step_write (r := .seedStat) hb rfl (by omega)
    · rw [step_write_window hb (by omega) (by omega), writeReg_hexView hview]
  · rintro (rfl | rfl | rfl) hb
    · exact step_read (r := .cmd) hb rfl
    · exact step_read (r := .hexPush) hb rfl
    · exact step_read (r := .seedPush) hb rfl

/-! ### Bytes of a block and of a word -/

/-- A field of a field that lies inside it is a field of the whole. -/
theorem extractLsb'_extractLsb'_inside {w n : Nat} (x : BitVec w) (start : Nat) {k len : Nat} (h : k + len ≤ n) :
    (x.extractLsb' start n).extractLsb' k len = x.extractLsb' (start + k) len := by
  apply BitVec.eq_of_getLsbD_eq
  intro j hj
  simp [hj, show k + j < n by omega, Nat.add_assoc]

/-- Byte j of a block's segment i is byte 4i+j of the block (R69). -/
theorem wordByte_seg (B : Block) (i : Fin 8) (j : Fin 4) :
    wordByte (seg B i) j = blockByte B ⟨4 * i.val + j.val, by omega⟩ := by
  have hbit : 224 - 32 * i.val + (24 - 8 * j.val) = 248 - 8 * (4 * i.val + j.val) := by omega
  rw [wordByte, seg, blockByte, extractLsb'_extractLsb'_inside _ _ (by omega), hbit]

/-- A word is its four bytes, the first most significant (R69). -/
theorem append_wordByte (v : Word) : wordByte v 0 ++ wordByte v 1 ++ wordByte v 2 ++ wordByte v 3 = v := by
  have join := @BitVec.extractLsb'_append_extractLsb'_eq_extractLsb'
  have first_two : wordByte v 0 ++ wordByte v 1 = v.extractLsb' 16 16 := join rfl
  have first_three : v.extractLsb' 16 16 ++ wordByte v 2 = v.extractLsb' 8 24 := join rfl
  have all_four : v.extractLsb' 8 24 ++ wordByte v 3 = v.extractLsb' 0 32 := join rfl
  rw [first_two, first_three, all_four, BitVec.extractLsb'_eq_self]

/-- Settles O16: the bytes of a segment are bytes of its block, and a word is its bytes. -/
theorem blockIsBigEndian : Obligations.BlockIsBigEndian :=
  ⟨fun B i => ⟨wordByte_seg B i 0, wordByte_seg B i 1, wordByte_seg B i 2, wordByte_seg B i 3⟩,
    fun _ _ => rfl, append_wordByte⟩

end Sys2Proof.Machine

namespace Sys2Proof

/-! ### What makes a word legal: one description of the three formats -/

/-- The lowest bit of a format's field that must be 0; it reaches up to bit 31 (R91 to R93). -/
def Format.zeroFrom (f : Format) : Nat :=
  match f with
  | .N => 8
  | .S => 11
  | .P => 17

/-- The bits a format fixes: the opcode and the field that must be 0. -/
def Format.mask (f : Format) : Word :=
  match f with
  | .N => 0xFFFFFFFF#32
  | .S => 0xFFFFF8FF#32
  | .P => 0xFFFE00FF#32

/-- The field of a word that its format wants to be 0. -/
def Format.zeroField (f : Format) (c : Word) : BitVec (32 - f.zeroFrom) := c.extractLsb' f.zeroFrom (32 - f.zeroFrom)

/-- A word passes the tests of R96 exactly when its opcode has a format and the word is as the format wants it. -/
theorem illegality_eq_none_iff (c : Word) :
    illegality c = none ↔
      ∃ f, formatOf (opField c) = some f ∧ f.zeroField c = 0 ∧ (f = .P → (sizeField c).toNat ≤ 256) := by
  unfold illegality
  cases hf : formatOf (opField c) with
  | none => simp
  | some f =>
    cases f with
    | N => simp [Format.zeroField, Format.zeroFrom]
    | S => simp [Format.zeroField, Format.zeroFrom]
    | P => by_cases hz : c.extractLsb' 17 15 = 0#15 <;> simp [Format.zeroField, Format.zeroFrom, hz]

theorem illegality_wordN {op : BitVec 8} (hf : formatOf op = some .N) : illegality (wordN op) = none :=
  (illegality_eq_none_iff _).mpr ⟨.N, by rwa [opField_wordN], zeroField_wordN op, nofun⟩

theorem illegality_wordS {op : BitVec 8} (hf : formatOf op = some .S) (k : Fin 8) : illegality (wordS op k) = none :=
  (illegality_eq_none_iff _).mpr ⟨.S, by rwa [opField_wordS], zeroField_wordS op k, nofun⟩

theorem illegality_wordP_iff {op : BitVec 8} (hf : formatOf op = some .P) (n : BitVec 9) :
    illegality (wordP op n) = none ↔ n.toNat ≤ 256 := by
  have hz : Format.P.zeroField (wordP op n) = 0 := zeroField_wordP op n
  simp [illegality_eq_none_iff, hf, hz]

/-! ### Decoding and encoding -/

/-- The word of a command passes the tests of R96 exactly when the command is well-formed. -/
theorem illegality_encode_iff (i : Instr) : illegality (encode i) = none ↔ i.wf = true := by
  cases i
  case derivePerm n => exact (illegality_wordP_iff rfl n).trans decide_eq_true_iff.symm
  case ldkey k => exact iff_of_true (illegality_wordS rfl k) rfl
  case kmix k => exact iff_of_true (illegality_wordS rfl k) rfl
  case expand k => exact iff_of_true (illegality_wordS rfl k) rfl
  case subst k => exact iff_of_true (illegality_wordS rfl k) rfl
  case rsubst k => exact iff_of_true (illegality_wordS rfl k) rfl
  case rexpand k => exact iff_of_true (illegality_wordS rfl k) rfl
  all_goals exact iff_of_true (illegality_wordN rfl) rfl

/-- The fields of a command's word select the command. -/
theorem commandOf_encode (i : Instr) :
    commandOf (opField (encode i)) (idxField (encode i)) (sizeField (encode i)) = some i := by
  cases i <;> simp [encode, opcode, commandOf]

theorem decode_eq_ok_iff (c : Word) (i : Instr) :
    decode c = .ok i ↔ illegality c = none ∧ commandOf (opField c) (idxField c) (sizeField c) = some i := by
  refine ⟨decode_ok, fun ⟨hl, hc⟩ => ?_⟩
  simp only [decode, hl, hc]

/-- Settles O1: the word passes the tests of R96, and its fields select the command. -/
theorem decodeOfEncode : Obligations.DecodeOfEncode :=
  fun i hi => (decode_eq_ok_iff _ i).mpr ⟨(illegality_encode_iff i).mpr hi, commandOf_encode i⟩

/-- Settles O4: each is the word of its command. -/
theorem writtenOutWordsDecode : Obligations.WrittenOutWordsDecode :=
  ⟨decodeOfEncode .nop rfl, decodeOfEncode .ldblk rfl, decodeOfEncode (.ldkey 3) rfl, decodeOfEncode .enc rfl,
    decodeOfEncode .dec rfl, decodeOfEncode .deriveKey rfl, decodeOfEncode (.derivePerm 256) rfl,
    decodeOfEncode .perm rfl, decodeOfEncode .invPerm rfl, decodeOfEncode .invert rfl, decodeOfEncode (.kmix 5) rfl,
    decodeOfEncode (.expand 0) rfl, decodeOfEncode (.subst 0) rfl, decodeOfEncode (.rsubst 7) rfl,
    decodeOfEncode (.rexpand 7) rfl, decodeOfEncode .clrHex rfl, decodeOfEncode .clrSeed rfl, decodeOfEncode .clrErr rfl⟩

/-! ### The words R97 calls illegal -/

/-- Every opcode with a format selects a command, whatever the fields hold. -/
theorem exists_commandOf {op : BitVec 8} {f : Format} (h : formatOf op = some f) (k : Fin 8) (n : BitVec 9) :
    ∃ i, commandOf op k n = some i := by
  unfold formatOf at h
  split at h <;> next hv => simp [commandOf, hv] at h ⊢

/-- A word is taken exactly when it passes the tests of R96. -/
theorem exists_decode_iff (c : Word) : (∃ i, decode c = .ok i) ↔ illegality c = none := by
  refine ⟨fun ⟨i, hi⟩ => (decode_ok hi).1, fun hl => ?_⟩
  obtain ⟨f, hf, -⟩ := (illegality_eq_none_iff c).mp hl
  obtain ⟨i, hi⟩ := exists_commandOf hf (idxField c) (sizeField c)
  exact ⟨i, (decode_eq_ok_iff c i).mpr ⟨hl, hi⟩⟩

theorem formatOf_eq_none_iff (op : BitVec 8) : formatOf op = none ↔ 0x12 ≤ op.toNat := by
  revert op; decide

theorem formatOf_eq_N_iff (op : BitVec 8) :
    formatOf op = some .N ↔ op.toNat ∈ [0x00, 0x01, 0x03, 0x04, 0x05, 0x07, 0x08, 0x09, 0x0F, 0x10, 0x11] := by
  revert op; decide

theorem formatOf_eq_S_iff (op : BitVec 8) :
    formatOf op = some .S ↔ op.toNat ∈ [0x02, 0x0A, 0x0B, 0x0C, 0x0D, 0x0E] := by
  revert op; decide

theorem formatOf_eq_P_iff (op : BitVec 8) : formatOf op = some .P ↔ op.toNat = 0x06 := by
  revert op; decide

/-- R97's list of illegal words, format by format. -/
theorem illegalWord_iff (c : Word) :
    Statements.IllegalWord c ↔ formatOf (opField c) = none ∨
      (formatOf (opField c) = some .N ∧ Format.N.zeroField c ≠ 0) ∨
      (formatOf (opField c) = some .S ∧ Format.S.zeroField c ≠ 0) ∨
      (formatOf (opField c) = some .P ∧ (Format.P.zeroField c ≠ 0 ∨ 256 < (sizeField c).toNat)) := by
  rw [formatOf_eq_none_iff, formatOf_eq_N_iff, formatOf_eq_S_iff, formatOf_eq_P_iff]
  rfl

/-- The tests of R96 find none exactly for the words R97 does not list. -/
theorem illegality_eq_none_iff_not_illegalWord (c : Word) : illegality c = none ↔ ¬ Statements.IllegalWord c := by
  rw [illegality_eq_none_iff, illegalWord_iff]
  cases formatOf (opField c) with
  | none => simp
  | some f => cases f <;> simp

/-- Settles O2: a legal word is its command's own, so the command is well-formed because its word is legal. -/
theorem legalWordsHaveOneCommand : Obligations.LegalWordsHaveOneCommand := by
  refine fun c => ⟨(exists_decode_iff c).trans (illegality_eq_none_iff_not_illegalWord c), fun i hi => ?_⟩
  have hword : encode i = c := encode_of_decode hi
  have hlegal : illegality c = none := (decode_ok hi).1
  exact ⟨hword, (illegality_encode_iff i).mp (hword ▸ hlegal)⟩

/-! ### The rows of the opcode table -/

theorem getLsbD_mask (f : Format) {j : Nat} (hj : j < 32) : f.mask.getLsbD j = decide (j < 8 ∨ f.zeroFrom ≤ j) := by
  cases f <;> revert j <;> decide

/-- Bit by bit, a word under its format's mask is an opcode's format N word exactly when it has that opcode and its field that must be 0 is 0. -/
theorem and_mask_eq_wordN_iff (f : Format) (c : Word) (op : BitVec 8) :
    c &&& f.mask = wordN op ↔ opField c = op ∧ f.zeroField c = 0 := by
  have hfrom : 8 ≤ f.zeroFrom := by cases f <;> decide
  constructor
  · intro h
    have hbit : ∀ j, j < 32 → (j < 8 ∨ f.zeroFrom ≤ j) → c.getLsbD j = op.getLsbD j := by
      intro j hj hm
      have := congrArg (fun v => v.getLsbD j) h
      simp only [BitVec.getLsbD_and, getLsbD_mask f hj, hm, decide_true, Bool.and_true] at this
      simpa [wordN, hj] using this
    constructor
    · apply BitVec.eq_of_getLsbD_eq
      intro j hj
      simpa [opField, hj] using hbit j (by omega) (.inl hj)
    · apply BitVec.eq_of_getLsbD_eq
      intro j hj
      have := hbit (f.zeroFrom + j) (by omega) (.inr (by omega))
      simpa [Format.zeroField, hj, BitVec.getLsbD_of_ge op (f.zeroFrom + j) (by omega)] using this
  · rintro ⟨rfl, hz⟩
    apply BitVec.eq_of_getLsbD_eq
    intro j hj
    rw [BitVec.getLsbD_and, getLsbD_mask f hj]
    by_cases h8 : j < 8
    · simp [wordN, opField, h8, hj]
    · by_cases hm : f.zeroFrom ≤ j
      · simp [wordN, opField, h8, getLsbD_of_zeroField hz j hm (by omega)]
      · simp [wordN, opField, h8, hm]

/-- A row of the table is its opcode's format written as a mask and a value; format P is DERIVEPERM's alone (R95). -/
theorem row_format {r : OpcodeRow} (hr : r ∈ opcodeTable) :
    ∃ f, formatOf (opField r.value) = some f ∧ r.value = wordN (opField r.value) ∧ r.mask = f.mask ∧
      (r.mnemonic = "DERIVEPERM" ↔ f = .P) := by
  have rows : ∀ r ∈ opcodeTable, ∃ f ∈ [Format.N, .S, .P], formatOf (opField r.value) = some f ∧
      r.value = wordN (opField r.value) ∧ r.mask = f.mask ∧ (r.mnemonic = "DERIVEPERM" ↔ f = .P) := by
    decide
  obtain ⟨f, -, hf⟩ := rows r hr
  exact ⟨f, hf⟩

/-- A word matches a row, with DERIVEPERM's constraint, exactly when it is a legal word of the row's opcode. -/
theorem row_match_iff {r : OpcodeRow} (hr : r ∈ opcodeTable) (c : Word) :
    (c &&& r.mask = r.value ∧ (r.mnemonic = "DERIVEPERM" → (sizeField c).toNat ≤ 256)) ↔
      opField c = opField r.value ∧ illegality c = none := by
  obtain ⟨f, hf, hvalue, hmask, hname⟩ := row_format hr
  rw [hvalue, hmask, and_mask_eq_wordN_iff, opField_wordN, hname, and_assoc, illegality_eq_none_iff]
  refine and_congr_right fun hop => ?_
  rw [hop, hf]
  simp

/-- Every command has a row with its mnemonic and its opcode (R95). -/
theorem exists_row (i : Instr) : ∃ r ∈ opcodeTable, r.mnemonic = mnemonic i ∧ opField r.value = opcode i := by
  cases i <;> simp only [mnemonic, opcode] <;> decide

/-- A command is of a row's mnemonic exactly when it has the row's opcode. -/
theorem mnemonic_eq_iff {r : OpcodeRow} (hr : r ∈ opcodeTable) (i : Instr) :
    mnemonic i = r.mnemonic ↔ opcode i = opField r.value := by
  have distinct : ∀ r ∈ opcodeTable, ∀ r' ∈ opcodeTable,
      r'.mnemonic = r.mnemonic ↔ opField r'.value = opField r.value := by decide
  obtain ⟨r', hr', hname, hop⟩ := exists_row i
  rw [← hname, ← hop]
  exact distinct r hr r' hr'

theorem opField_encode (i : Instr) : opField (encode i) = opcode i := by
  cases i <;> simp [encode]

theorem opField_of_decode {c : Word} {i : Instr} (h : decode c = .ok i) : opField c = opcode i := by
  rw [← encode_of_decode h, opField_encode]

/-- Settles O3: a word decodes to a command of a row exactly when it is a legal word of the row's opcode. -/
theorem decodeAgreesWithOpcodeTable : Obligations.DecodeAgreesWithOpcodeTable := by
  intro r hr c
  refine Iff.trans ?_ (row_match_iff hr c).symm
  constructor
  · rintro ⟨i, hi, hname⟩
    exact ⟨(opField_of_decode hi).trans ((mnemonic_eq_iff hr i).mp hname), (decode_ok hi).1⟩
  · rintro ⟨hrow, hl⟩
    obtain ⟨i, hi⟩ := (exists_decode_iff c).mpr hl
    exact ⟨i, hi, (mnemonic_eq_iff hr i).mpr ((opField_of_decode hi).symm.trans hrow)⟩

end Sys2Proof

namespace Sys2Proof.Machine

/-! ### A text pushed into the hex port -/

/-- A well-formed command, assembled and written to CMD, runs (R90, R98). -/
theorem perform_assemble {i : Instr} (hi : i.wf = true) (s : State) : perform (assemble i) s = exec i s :=
  (busWrite_cmd _ s).trans (runCommand_legal (decodeOfEncode i hi) s)

/-- The state after CLRHEX and one push for each word. -/
def hexFilled (ws : List Word) (s : State) : State :=
  ws.foldl (fun u w => hexPush w u) { clearHexPort s with err := 0, lastop := 0x0F }

theorem performAll_hexFilled (ws : List Word) (s : State) :
    performAll (assemble .clrHex :: ws.map fun w => .write 4 0x008 w) s = .next (hexFilled ws s) :=
  (performAll_cons_next (perform_assemble rfl s) _).trans (performAll_hexPushes ws _)

theorem hexFilled_hexCnt (ws : List Word) (s : State) : (hexFilled ws s).hexCnt.toNat = min ws.length 0xFFFF := by
  simp [hexFilled, hexPushes_hexCnt]

theorem hexFilled_hexBad (ws : List Word) (s : State) : (hexFilled ws s).hexBad = ws.any fun w => !isHexDigit w := by
  simp [hexFilled, hexPushes_hexBad]

/-- Digit k of the port is the value of the word pushed as number k (R110). -/
theorem hexFilled_hexDig (ws : List Word) (s : State) (k : Nat) (hk : k < 64) (hlen : k < ws.length)
    (hdigit : isHexDigit ws[k] = true) : (hexFilled ws s).hexDig[k] = digitValue ws[k] := by
  induction ws using List.reverseRecOn with
  | nil => simp at hlen
  | append_singleton ws w ih =>
    have hcnt := hexFilled_hexCnt ws s
    have hpush : hexFilled (ws ++ [w]) s = hexPush w (hexFilled ws s) := by simp [hexFilled]
    rw [List.length_append, List.length_singleton] at hlen
    simp only [hpush, hexPush_hexDig _ _ k hk]
    by_cases hlast : k = ws.length
    · subst hlast
      rw [List.getElem_concat_length rfl] at hdigit ⊢
      rw [if_pos ⟨hdigit, by omega⟩]
    · have hold : k < ws.length := by omega
      rw [List.getElem_append_left hold] at hdigit ⊢
      rw [if_neg (by omega), ih hold hdigit]

/-- A command that consumes the port leaves no trace of what was pushed. -/
theorem clearHexPort_hexFilled (ws : List Word) (s : State) :
    clearHexPort (hexFilled ws s) = { clearHexPort s with err := 0, lastop := 0x0F } := by
  unfold hexFilled
  rw [hexPushes_frame]
  rfl

/-! ### What HexCheck says of a pushed text -/

theorem hexFilled_hexCnt_eq_zero_iff (ws : List Word) (s : State) : (hexFilled ws s).hexCnt = 0 ↔ ws = [] := by
  have hcnt := hexFilled_hexCnt ws s
  rw [← BitVec.toNat_inj, hcnt, ← List.length_eq_zero_iff]
  simp

theorem hexFilled_hexBad_eq_false_iff (ws : List Word) (s : State) :
    (hexFilled ws s).hexBad = false ↔ ∀ w ∈ ws, isHexDigit w = true := by
  simp [hexFilled_hexBad]

theorem hexCheck_hexFilled_format {m : Nat} {ws : List Word} {s : State}
    (h : ws = [] ∨ ∃ w ∈ ws, isHexDigit w = false) : hexCheck m (hexFilled ws s) = .format := by
  rw [hexCheck_format_iff, hexFilled_hexCnt_eq_zero_iff, hexFilled_hexBad]
  simpa [or_comm] using h

theorem hexCheck_hexFilled_size {m : Nat} {ws : List Word} {s : State} (hm : m < 0xFFFF) (hne : ws ≠ [])
    (hd : ∀ w ∈ ws, isHexDigit w = true) (hlen : ws.length ≠ m) : hexCheck m (hexFilled ws s) = .size := by
  have hcnt := hexFilled_hexCnt ws s
  rw [hexCheck_size_iff, hexFilled_hexBad_eq_false_iff, ne_eq, hexFilled_hexCnt_eq_zero_iff]
  exact ⟨hd, hne, by omega⟩

theorem hexCheck_hexFilled_ok {m : Nat} {ws : List Word} {s : State} (hm : m < 0xFFFF) (h0 : m ≠ 0)
    (hd : ∀ w ∈ ws, isHexDigit w = true) (hlen : ws.length = m) : hexCheck m (hexFilled ws s) = .ok := by
  have hcnt := hexFilled_hexCnt ws s
  have hne : ws ≠ [] := List.ne_nil_of_length_pos (by omega)
  rw [hexCheck_ok_iff, hexFilled_hexBad_eq_false_iff, ne_eq, hexFilled_hexCnt_eq_zero_iff]
  exact ⟨hd, hne, by omega⟩

/-- Digit k of the block the port holds is the value of the word pushed as number k (R110, R112). -/
theorem blockDigit_hexFilled {ws : List Word} {s : State} {k : Fin 64} {w : Word} (hw : ws[k.val]? = some w)
    (hdigit : isHexDigit w = true) : blockDigit (hexValue 64 (hexFilled ws s)) k = digitValue w := by
  obtain ⟨hlen, rfl⟩ := List.getElem?_eq_some_iff.mp hw
  exact (blockDigit_hexValue _ k).trans (hexFilled_hexDig ws s k k.isLt hlen hdigit)

/-! ### LDBLK's three ends, and the line that fills the port for it -/

theorem exec_ldblk_format {s : State} (h : hexCheck 64 s = .format) :
    exec .ldblk s = .next (raiseAt 0x01 .format (clearHexPort s)) := by
  simp only [exec, execLdblk, h]; rfl

theorem exec_ldblk_size {s : State} (h : hexCheck 64 s = .size) :
    exec .ldblk s = .next (raiseAt 0x01 .blockSize (clearHexPort s)) := by
  simp only [exec, execLdblk, h]; rfl

theorem exec_ldblk_ok {s : State} (h : hexCheck 64 s = .ok) :
    exec .ldblk s = .next { clearHexPort s with blk := hexValue 64 s, err := 0, lastop := 0x01 } := by
  simp only [exec, execLdblk, h]; rfl

theorem performAll_ldblkLine (text : List Char) (s : State) :
    performAll (expandLine (.ldblk text)) s = exec .ldblk (hexFilled (text.map charWord) s) := by
  have hline : hexLine text = assemble .clrHex :: (text.map charWord).map fun w => .write 4 0x008 w := by
    rw [List.map_map]; rfl
  rw [expandLine, hline, performAll_append_next (performAll_hexFilled _ s), performAll, perform_assemble rfl]
  cases exec .ldblk (hexFilled (text.map charWord) s) <;> rfl

/-- Settles O22: what the text is decides what HexCheck says of the filled port, and that which of its ends LDBLK takes. -/
theorem ldblkLineLoadsOrReports : Obligations.LdblkLineLoadsOrReports := by
  intro text s
  have hclear := clearHexPort_hexFilled (text.map charWord) s
  have hformat : (text = [] ∨ ∃ c ∈ text, isHexDigit (charWord c) = false) →
      hexCheck 64 (hexFilled (text.map charWord) s) = .format :=
    fun h => hexCheck_hexFilled_format (by simpa using h)
  have hsize : (text ≠ [] ∧ (∀ c ∈ text, isHexDigit (charWord c) = true) ∧ text.length ≠ 64) →
      hexCheck 64 (hexFilled (text.map charWord) s) = .size :=
    fun ⟨hne, hd, hlen⟩ => hexCheck_hexFilled_size (by decide) (by simpa using hne) (by simpa using hd)
      (by simpa using hlen)
  have hok : ((∀ c ∈ text, isHexDigit (charWord c) = true) ∧ text.length = 64) →
      hexCheck 64 (hexFilled (text.map charWord) s) = .ok :=
    fun ⟨hd, hlen⟩ => hexCheck_hexFilled_ok (by decide) (by decide) (by simpa using hd) (by simpa using hlen)
  rw [performAll_ldblkLine]
  cases hc : hexCheck 64 (hexFilled (text.map charWord) s) with
  | format =>
    rw [exec_ldblk_format hc, hclear]
    exact ⟨_, rfl, by simp [raiseAt, clearHexPort, errorCode], fun _ => ⟨rfl, rfl⟩,
      fun h => (nomatch hc.symm.trans (hsize h)), fun h => (nomatch hc.symm.trans (hok h))⟩
  | size =>
    rw [exec_ldblk_size hc, hclear]
    exact ⟨_, rfl, by simp [raiseAt, clearHexPort, errorCode],
      fun h => (nomatch hc.symm.trans (hformat h)), fun _ => ⟨rfl, rfl⟩,
      fun h => (nomatch hc.symm.trans (hok h))⟩
  | ok =>
    rw [exec_ldblk_ok hc, hclear]
    refine ⟨_, rfl, by simp [clearHexPort], fun h => (nomatch hc.symm.trans (hformat h)),
      fun h => (nomatch hc.symm.trans (hsize h)), fun ⟨hd, _⟩ => ⟨rfl, fun k c hk => ?_⟩⟩
    have hword : (text.map charWord)[k.val]? = some (charWord c) := by rw [List.getElem?_map, hk]; rfl
    exact blockDigit_hexFilled hword (hd c (List.mem_of_getElem? hk))

end Sys2Proof.Machine

namespace Sys2Proof.Machine

/-! ### Hex digit characters, run by run -/

/-- `count` consecutive characters from `first` on, each with its digit, the digits from `value` on. -/
def digitRun (first value count : Nat) : List (Nat × Nat) := (List.range count).map fun k => (first + k, value + k)

theorem mem_digitRun_iff (first value count n d : Nat) :
    (n, d) ∈ digitRun first value count ↔ first ≤ n ∧ n < first + count ∧ d + first = n + value := by
  simp only [digitRun, List.mem_map, List.mem_range, Prod.mk.injEq]
  constructor
  · rintro ⟨k, hk, rfl, rfl⟩
    omega
  · rintro ⟨hge, hlt, hd⟩
    exact ⟨n - first, by omega, by omega, by omega⟩

/-- A character is a hex digit of value d when it stands in one of R111's three runs, d places into the run's digits. -/
theorem hexDigit_value_iff (v : Word) (d : Nibble) :
    isHexDigit v = true ∧ digitValue v = d ↔
      (v.toNat, d.toNat) ∈ digitRun 0x30 0 10 ++ digitRun 0x61 10 6 ++ digitRun 0x41 10 6 := by
  simp only [List.mem_append, mem_digitRun_iff, isHexDigit, Bool.or_eq_true, Bool.and_eq_true, decide_eq_true_eq,
    ← BitVec.toNat_inj, digitValue]
  have hd := d.isLt
  split
  · rw [BitVec.toNat_ofNat]; omega
  · split <;> rw [BitVec.toNat_ofNat] <;> omega

/-- Settles O18: the 22 pairs of the rule are the three runs written out. -/
theorem hexDigitsAreExactly22 : Obligations.HexDigitsAreExactly22 := hexDigit_value_iff

/-! ### A write to HEX_PUSH -/

/-- Settles O17: the write is one `hexPush`, whose three registers have a law each. -/
theorem hexPushAppends : Obligations.HexPushAppends := by
  intro s v rest hb
  refine ⟨(hexPush v s).hexDig, (hexPush v s).hexCnt, (hexPush v s).hexBad,
    step_write (r := .hexPush) hb rfl (by decide), fun k => ?_, ?_, ?_⟩
  · exact (hexPush_hexDig v s k k.isLt).trans (if_congr (and_congr_right fun _ => eq_comm) rfl rfl)
  · simp
  · have hcnt := s.hexCnt.isLt
    rw [hexPush_hexCnt]
    split <;> omega

/-! ### LDBLK and LDKEY -/

/-- Settles O19: the premises of each clause are when HexCheck gives the answer that leads to its end. -/
theorem ldblkEffect : Obligations.LdblkEffect := by
  refine ⟨rfl, fun s => ⟨fun hbad => ?_, fun hbad hne hlen => ?_, fun hbad hlen => ?_⟩⟩
  · exact exec_ldblk_format ((hexCheck_format_iff 64 s).mpr hbad)
  · exact exec_ldblk_size ((hexCheck_size_iff 64 s).mpr ⟨hbad, hne, fun h => hlen (BitVec.eq_of_toNat_eq h)⟩)
  · exact ⟨hexValue 64 s, exec_ldblk_ok ((hexCheck_ok_iff 64 s).mpr ⟨hbad, by simp [hlen], by simp [hlen]⟩),
      blockDigit_hexValue s⟩

theorem exec_ldkey_format {s : State} (i : Fin 8) (h : hexCheck 8 s = .format) :
    exec (.ldkey i) s = .next (raiseAt 0x02 .format (clearHexPort s)) := by
  simp only [exec, execLdkey, h]; rfl

theorem exec_ldkey_size {s : State} (i : Fin 8) (h : hexCheck 8 s = .size) :
    exec (.ldkey i) s = .next (raiseAt 0x02 .keySegSize (clearHexPort s)) := by
  simp only [exec, execLdkey, h]; rfl

theorem exec_ldkey_ok {s : State} (i : Fin 8) (h : hexCheck 8 s = .ok) :
    exec (.ldkey i) s = .next { clearHexPort s with key := s.key.set i (hexValue 8 s), err := 0, lastop := 0x02 } := by
  simp only [exec, execLdkey, h]; rfl

/-- Settles O20: as for LDBLK, and the key that is loaded is the one the word names. -/
theorem ldkeyEffect : Obligations.LdkeyEffect := by
  refine fun i => ⟨rfl, fun s => ⟨fun hbad => ?_, fun hbad hne hlen => ?_, fun hbad hlen => ?_⟩⟩
  · exact exec_ldkey_format i ((hexCheck_format_iff 8 s).mpr hbad)
  · exact exec_ldkey_size i ((hexCheck_size_iff 8 s).mpr ⟨hbad, hne, fun h => hlen (BitVec.eq_of_toNat_eq h)⟩)
  · refine ⟨s.key.set i (hexValue 8 s),
      exec_ldkey_ok i ((hexCheck_ok_iff 8 s).mpr ⟨hbad, by simp [hlen], by simp [hlen]⟩), fun j hj => ?_, fun j => ?_⟩
    · exact Vector.getElem_set_ne i.isLt j.isLt fun h => hj (Fin.ext h.symm)
    · rw [Fin.getElem_fin, Vector.getElem_set_self]
      exact wordDigit_hexValue s j

/-! ### KMIX -/

theorem exec_kmix (i : Fin 8) (s : State) :
    exec (.kmix i) s = .next { s with blk := setSeg s.blk i (seg s.blk i ^^^ s.key[i]), err := 0, lastop := 0x0A } := rfl

/-- Mixing one word into a segment twice restores the block. -/
theorem setSeg_xor_twice (B : Block) (i : Fin 8) (k : Word) :
    setSeg (setSeg B i (seg B i ^^^ k)) i (seg (setSeg B i (seg B i ^^^ k)) i ^^^ k) = B := by
  apply block_ext_seg
  intro j
  by_cases hj : j = i
  · subst hj
    simp
  · simp [hj]

/-- Settles O21: one KMIX sets the segment, and the second XORs the same key into it again. -/
theorem kmixEffect : Obligations.KmixEffect := fun i s =>
  ⟨rfl, ⟨_, exec_kmix i s, fun j => seg_setSeg s.blk i j _⟩, _, _, exec_kmix i s, exec_kmix i _,
    setSeg_xor_twice s.blk i s.key[i]⟩

/-! ### Rendering a block and loading what was rendered -/

/-- A command after the port was filled runs on the filled port. -/
theorem performAll_hexFilled_command {i : Instr} (hi : i.wf = true) (ws : List Word) {u t : State}
    (h : exec i (hexFilled ws u) = .next t) :
    performAll ((assemble .clrHex :: ws.map fun w => .write 4 0x008 w) ++ [assemble i]) u = .next t :=
  (performAll_append_next (performAll_hexFilled ws u) _).trans
    (performAll_cons_next ((perform_assemble hi _).trans h) [])

/-- The 64 values the hex view of a block reads, in order (R29). -/
def renderedBlock (B : Block) : List Word := (List.finRange 64).map fun k => hexchar (blockDigit B k)

theorem renderedBlock_getElem? (B : Block) (k : Fin 64) : (renderedBlock B)[k.val]? = some (hexchar (blockDigit B k)) := by
  simp [renderedBlock]

/-- What a rendered block leaves in the port passes HexCheck, with the block as its value. -/
theorem hexFilled_renderedBlock (B : Block) (u : State) :
    hexCheck 64 (hexFilled (renderedBlock B) u) = .ok ∧ hexValue 64 (hexFilled (renderedBlock B) u) = B := by
  constructor
  · exact hexCheck_hexFilled_ok (by decide) (by decide) (by simp [renderedBlock]) (by simp [renderedBlock])
  · apply block_ext_digit
    intro k
    rw [blockDigit_hexFilled (renderedBlock_getElem? B k) (isHexDigit_hexchar _), digitValue_hexchar]

/-- Settles O23: LDBLK loads the value of the filled port, which is the rendered block. -/
theorem renderThenLoadRestoresBlock : Obligations.RenderThenLoadRestoresBlock := by
  intro s u
  obtain ⟨hcheck, hvalue⟩ := hexFilled_renderedBlock s.blk u
  have hrun := performAll_hexFilled_command rfl (renderedBlock s.blk) (exec_ldblk_ok hcheck)
  rw [renderedBlock, List.map_map] at hrun
  exact ⟨_, hrun, hvalue, rfl⟩

end Sys2Proof.Machine

namespace Sys2Proof.Machine

open Statements (PT IsPerm)

/-! ### The table as the statements write it, and as the commands read it -/

theorem PT_eq_getElem (s : State) {k : Nat} (hk : k < 256) : PT s k = s.pt[k].toNat := by
  simp [PT, hk]

/-- Below PT_SIZE the current table holds what PT holds (R24). -/
theorem PT_eq_currentTable (s : State) {k : Nat} (hk : k < (currentTable s).length) :
    PT s k = (currentTable s)[k].toNat := by
  have hk256 : k < 256 := by
    simp only [currentTable, List.length_take, Vector.length_toList] at hk
    omega
  rw [PT_eq_getElem s hk256, getElem_currentTable s k hk hk256]

/-- The machine's test of a table is R16's `IsPerm` of the table's entries. -/
theorem isPerm_iff_IsPerm {T : List Byte} {f : Nat → Nat} (hf : ∀ k (hk : k < T.length), f k = T[k].toNat) :
    isPerm T T.length = true ↔ IsPerm f T.length := by
  rw [isPerm_iff, List.forall_mem_iff_forall_getElem, List.nodup_iff_injective_getElem]
  refine and_congr (forall₂_congr fun k hk => by rw [hf k hk]) ⟨fun hinj j k hj hk hjk => ?_, fun hinj a b hab => ?_⟩
  · rw [hf j hj, hf k hk] at hjk
    exact Fin.mk.inj_iff.mp (@hinj ⟨j, hj⟩ ⟨k, hk⟩ (BitVec.eq_of_toNat_eq hjk))
  · apply Fin.ext
    apply hinj a b a.isLt b.isLt
    rw [hf a a.isLt, hf b b.isLt]
    exact congrArg BitVec.toNat hab

theorem isPerm_currentTable_iff {s : State} (h : s.ptSize.toNat ≤ 256) :
    isPerm (currentTable s) s.ptSize.toNat = true ↔ IsPerm (PT s) s.ptSize.toNat := by
  rw [← currentTable_length s h]
  exact isPerm_iff_IsPerm fun k hk => PT_eq_currentTable s hk

theorem IsPerm_of_currentTable_eq {s : State} {T : List Byte} {n : BitVec 9} (hT : currentTable s = T)
    (hsize : s.ptSize = n) (hn : n.toNat ≤ 256) (h : isPerm T n.toNat = true) : IsPerm (PT s) n.toNat := by
  subst hT hsize
  exact (isPerm_currentTable_iff hn).mp h

/-! ### A table of 256 entries, and the three ends of a block command -/

section

variable {s : State} (h : s.ptSize = 256)
include h

theorem ptSize_toNat_of_full : s.ptSize.toNat = 256 := congrArg BitVec.toNat h

theorem currentTable_length_of_full : (currentTable s).length = 256 := by
  have hn := ptSize_toNat_of_full h
  rw [currentTable_length s hn.le, hn]

theorem isPerm_currentTable_of_full_iff : isPerm (currentTable s) 256 = true ↔ IsPerm (PT s) 256 := by
  have hn := ptSize_toNat_of_full h
  have hiff := isPerm_currentTable_iff hn.le
  rwa [hn] at hiff

theorem blockCommand_permutation (hp : IsPerm (PT s) 256) (i : Instr) (f : List Byte → Block → Block) :
    blockCommand i f s = .next { s with blk := f (currentTable s) s.blk, err := 0, lastop := opcode i } :=
  blockCommand_ok (ptSize_toNat_of_full h) ((isPerm_currentTable_of_full_iff h).mpr hp)

theorem BlockCommand.exec_notPermutation {i : Instr} (hi : BlockCommand i) (hp : ¬ IsPerm (PT s) 256) :
    exec i s = .next { s with err := 5, eany := true, lastop := opcode i } := by
  obtain ⟨f, hf⟩ := exec_blockCommand hi
  rw [hf]
  exact blockCommand_notPerm (ptSize_toNat_of_full h)
    (Bool.eq_false_of_not_eq_true (mt (isPerm_currentTable_of_full_iff h).mp hp))

end

theorem BlockCommand.exec_lengthMismatch {i : Instr} (hi : BlockCommand i) {s : State} (h : s.ptSize ≠ 256) :
    exec i s = .next { s with err := 4, eany := true, lastop := opcode i } := by
  obtain ⟨f, hf⟩ := exec_blockCommand hi
  rw [hf]
  exact blockCommand_length fun hn => h (BitVec.eq_of_toNat_eq hn)

/-! ### PERM and INVPERM -/

theorem exec_perm_ok {s : State} (h : s.ptSize = 256) (hp : IsPerm (PT s) 256) :
    exec .perm s = .next { s with blk := applyPerm s.blk (currentTable s), err := 0, lastop := 0x07 } :=
  blockCommand_permutation h hp .perm fun T B => applyPerm B T

theorem exec_invPerm_ok {s : State} (h : s.ptSize = 256) (hp : IsPerm (PT s) 256) :
    exec .invPerm s = .next { s with blk := applyPerm s.blk (invertTable (currentTable s)), err := 0, lastop := 0x08 } :=
  blockCommand_permutation h hp .invPerm fun T B => applyPerm B (invertTable T)

/-- Output position i of the permuted block is input position PT[i] (R135). -/
theorem pos_applyPerm_currentTable {s : State} (h : s.ptSize = 256) (B : Block) {i : Nat} (hi : i < 256) :
    pos (applyPerm B (currentTable s)) i = pos B (PT s i) := by
  have hlen := currentTable_length_of_full h
  rw [pos_applyPerm B _ hlen i hi, PT_eq_currentTable s (by omega)]

/-- Output position PT[i] of the block permuted by the inverse is input position i (R138, R139). -/
theorem pos_applyPerm_invertTable {s : State} (h : s.ptSize = 256) (hp : IsPerm (PT s) 256) (B : Block) {i : Nat}
    (hi : i < 256) : pos (applyPerm B (invertTable (currentTable s))) (PT s i) = pos B i := by
  have hlen := currentTable_length_of_full h
  have hperm := (isPerm_currentTable_of_full_iff h).mpr hp
  have hPT : PT s i = (currentTable s)[i].toNat := PT_eq_currentTable s (by omega)
  have hlt : (currentTable s)[i].toNat < 256 := hPT ▸ hp.1 i hi
  rw [hPT, pos_applyPerm B _ (by rw [invertTable_length, hlen]) _ hlt,
    invertTable_at hlen le_rfl hperm i (by omega)]

/-- Settles O27, by the three ends of a block command. -/
theorem permEffect : Obligations.PermEffect := by
  have hblock : BlockCommand .perm := .inr (.inr (.inl rfl))
  exact ⟨rfl, fun s => ⟨hblock.exec_lengthMismatch, fun h => hblock.exec_notPermutation h,
    fun h hp => ⟨_, exec_perm_ok h hp, fun _ => pos_applyPerm_currentTable h s.blk⟩⟩⟩

/-- Settles O28, by the three ends of a block command. -/
theorem invPermEffect : Obligations.InvPermEffect := by
  have hblock : BlockCommand .invPerm := .inr (.inr (.inr rfl))
  exact ⟨rfl, fun s => ⟨hblock.exec_lengthMismatch, fun h => hblock.exec_notPermutation h,
    fun h hp => ⟨_, exec_invPerm_ok h hp, fun _ => pos_applyPerm_invertTable h hp s.blk⟩⟩⟩

/-- Settles O29: the second command reads the same table, which the first one does not write. -/
theorem permAndInvPermCancel : Obligations.PermAndInvPermCancel := by
  intro s h hp
  have hlen := currentTable_length_of_full h
  have hperm := (isPerm_currentTable_of_full_iff h).mpr hp
  exact ⟨⟨_, _, exec_perm_ok h hp, exec_invPerm_ok h hp, rfl, applyPerm_invertTable s.blk _ hlen hperm⟩,
    ⟨_, _, exec_invPerm_ok h hp, exec_perm_ok h hp, rfl, applyPerm_of_invertTable s.blk _ hlen hperm⟩⟩

/-! ### Storing a table -/

theorem storeTable_getElem?_getD {T : List Byte} (hT : T.length ≤ 256) (pt : Vector Byte 256) {k : Nat}
    (hk : k < T.length) : (storeTable T pt)[k]?.getD 0 = T[k] := by
  have hk256 : k < 256 := by omega
  rw [Vector.getElem?_eq_getElem hk256, Option.getD_some, getElem_storeTable T pt k hk256, dif_pos hk]

/-- The entries from the stored table's size on stay (R134, R140). -/
theorem storeTable_above {T : List Byte} {n : Nat} (hlen : T.length = n) (pt : Vector Byte 256) (k : Fin 256)
    (hk : n ≤ k.val) : (storeTable T pt)[k] = pt[k] := by
  rw [Fin.getElem_fin, getElem_storeTable T pt k k.isLt, dif_neg (by omega), Fin.getElem_fin]

/-- A table stored over one of the same size leaves no trace of that one. -/
theorem storeTable_storeTable {T U : List Byte} (hlen : U.length = T.length) (pt : Vector Byte 256) :
    storeTable T (storeTable U pt) = storeTable T pt := by
  apply Vector.ext
  intro k hk
  simp only [getElem_storeTable _ _ k hk, hlen]
  split <;> rfl

/-- Storing the current table changes nothing. -/
theorem storeTable_currentTable (s : State) : storeTable (currentTable s) s.pt = s.pt := by
  apply Vector.ext
  intro k hk
  rw [getElem_storeTable _ _ k hk]
  split
  · next hin => exact getElem_currentTable s k hin hk
  · rfl

/-! ### INVERT -/

/-- The state after an INVERT that succeeds (R140). -/
def inverted (s : State) : State :=
  { s with pt := storeTable (invertTable (currentTable s)) s.pt, err := 0, lastop := 0x09 }

@[simp] theorem inverted_pt (s : State) :
    (inverted s).pt = storeTable (invertTable (currentTable s)) s.pt := by rw [inverted]

@[simp] theorem inverted_ptSize (s : State) : (inverted s).ptSize = s.ptSize := by rw [inverted]

section

variable {s : State} (hn : s.ptSize.toNat ≤ 256)
include hn

theorem exec_invert_ok (hp : IsPerm (PT s) s.ptSize.toNat) :
    exec .invert s = .next (inverted s) :=
  if_pos ((isPerm_currentTable_iff hn).mpr hp)

theorem exec_invert_notPermutation (hp : ¬ IsPerm (PT s) s.ptSize.toNat) :
    exec .invert s = .next { s with err := 5, eany := true, lastop := 0x09 } :=
  if_neg (mt (isPerm_currentTable_iff hn).mp hp)

/-- The stored inverse holds k at PT[k], for the old PT (R139). -/
theorem storeTable_invertTable_at (hp : IsPerm (PT s) s.ptSize.toNat) {k : Nat} (hk : k < s.ptSize.toNat) :
    ((storeTable (invertTable (currentTable s)) s.pt)[PT s k]?.getD 0).toNat = k := by
  have hlen := currentTable_length s hn
  have hperm := (isPerm_currentTable_iff hn).mpr hp
  have hinv : (invertTable (currentTable s)).length = s.ptSize.toNat := by rw [invertTable_length, hlen]
  have hPT : PT s k = (currentTable s)[k].toNat := PT_eq_currentTable s (by omega)
  have hlt : (currentTable s)[k].toNat < (invertTable (currentTable s)).length := by
    rw [hinv, ← hPT]
    exact hp.1 k hk
  rw [hPT, storeTable_getElem?_getD (hinv.trans_le hn) s.pt hlt, invertTable_at hlen hn hperm k (by omega)]

theorem currentTable_inverted : currentTable (inverted s) = invertTable (currentTable s) := by
  have hlen : (invertTable (currentTable s)).length = s.ptSize.toNat := by
    rw [invertTable_length, currentTable_length s hn]
  rw [currentTable, inverted_pt, inverted_ptSize, currentTable_storeTable _ s s.ptSize hn hlen]

theorem IsPerm_inverted (hp : IsPerm (PT s) s.ptSize.toNat) : IsPerm (PT (inverted s)) s.ptSize.toNat :=
  IsPerm_of_currentTable_eq (currentTable_inverted hn) (inverted_ptSize s) hn
    (isPerm_invertTable (currentTable_length s hn) hn ((isPerm_currentTable_iff hn).mpr hp))

/-- The inverse of the inverse is the old table, stored over its inverse (R139). -/
theorem inverted_inverted_pt (hp : IsPerm (PT s) s.ptSize.toNat) : (inverted (inverted s)).pt = s.pt := by
  have hback : invertTable (invertTable (currentTable s)) = currentTable s :=
    invertTable_invertTable (currentTable_length s hn) hn ((isPerm_currentTable_iff hn).mpr hp)
  calc (inverted (inverted s)).pt
      = storeTable (currentTable s) (storeTable (invertTable (currentTable s)) s.pt) := by
        rw [inverted_pt, currentTable_inverted hn, hback, inverted_pt]
    _ = storeTable (currentTable s) s.pt := storeTable_storeTable (invertTable_length _) s.pt
    _ = s.pt := storeTable_currentTable s

end

/-- Settles O30, by the two ends of INVERT. -/
theorem invertEffect : Obligations.InvertEffect :=
  ⟨rfl, fun s hn => ⟨exec_invert_notPermutation hn, fun hp => ⟨_, exec_invert_ok hn hp,
    fun _ => storeTable_invertTable_at hn hp,
    storeTable_above (by rw [invertTable_length, currentTable_length s hn]) s.pt⟩⟩⟩

/-- Settles O31: the first INVERT leaves a permutation, so the second succeeds too. -/
theorem invertTwiceRestores : Obligations.InvertTwiceRestores := by
  intro s hn hp
  have hp' := IsPerm_inverted hn hp
  have hsecond : exec .invert (inverted s) = .next (inverted (inverted s)) := by
    rw [← inverted_ptSize] at hn hp'
    exact exec_invert_ok hn hp'
  exact ⟨_, _, exec_invert_ok hn hp, hsecond, by rw [inverted], inverted_inverted_pt hn hp⟩

/-! ### DERIVEPERM -/

/-- The state after a DERIVEPERM that succeeds (R134). -/
def derived (n : BitVec 9) (s : State) : State :=
  { s with pt := storeTable (shuffleTable (seedSum s) n.toNat) s.pt, ptSize := n, err := 0, lastop := 0x06 }

/-- A size above 256 has no legal word (R93, R97). -/
theorem decode_derivePerm_illegal {n : BitVec 9} (hn : 256 < n.toNat) :
    ∃ e, decode (encode (.derivePerm n)) = .error e := by
  cases hd : decode (encode (.derivePerm n)) with
  | error e => exact ⟨e, rfl⟩
  | ok i =>
    have hwf := (illegality_encode_iff (.derivePerm n)).mp (decode_ok hd).1
    exact absurd (of_decide_eq_true hwf) (by omega)

theorem toNat_getElem_shuffleTable (sum : Nat) {n : Nat} (hn : n ≤ 256) (k : Fin n) :
    ((shuffleTable sum n)[k.val]'(by simp)).toNat = (Config.permShuffle sum n k).val := by
  have hlt := (Config.permShuffle sum n k).isLt
  simp only [shuffleTable, List.getElem_ofFn, Fin.eta, BitVec.toNat_ofNat]
  omega

section

variable {n : BitVec 9} (hn : n.toNat ≤ 256)
include hn

theorem exec_derivePerm_seed {s : State} (hbad : s.seedBad = true) :
    exec (.derivePerm n) s = .next { s with err := 6, eany := true, lastop := 0x06 } :=
  (if_neg hn.not_gt).trans (if_pos hbad)

theorem exec_derivePerm_ok {s : State} (hgood : s.seedBad = false) :
    exec (.derivePerm n) s = .next (derived n s) :=
  (if_neg hn.not_gt).trans (if_neg (by rw [hgood]; decide))

/-- Entry k < n of the derived table is the shuffle's value at k (R131). -/
theorem PT_derived (s : State) (k : Fin n.toNat) :
    PT (derived n s) k.val = (Config.permShuffle (seedSum s) n.toNat k).val := by
  rw [PT, derived, storeTable_getElem?_getD (by simpa using hn) s.pt (by simp),
    toNat_getElem_shuffleTable _ hn k]

theorem currentTable_derived (s : State) : currentTable (derived n s) = shuffleTable (seedSum s) n.toNat :=
  currentTable_storeTable _ s n hn (shuffleTable_length _ _)

theorem IsPerm_derived (s : State) : IsPerm (PT (derived n s)) n.toNat :=
  IsPerm_of_currentTable_eq (currentTable_derived hn s) rfl hn (isPerm_shuffleTable (seedSum s) n.toNat hn)

end

/-- Settles O24, by the ends of DERIVEPERM. -/
theorem derivePermEffect : Obligations.DerivePermEffect := fun _ s =>
  ⟨rfl, decode_derivePerm_illegal, fun hn => exec_derivePerm_seed hn, fun hn hgood => ⟨_, exec_derivePerm_ok hn hgood,
    PT_derived hn s, storeTable_above (shuffleTable_length _ _) s.pt⟩⟩

/-- Settles O25: the shuffle's table becomes the current table, so PERM finds a permutation. -/
theorem derivedTableIsPermutation : Obligations.DerivedTableIsPermutation := by
  intro n s hn hgood
  refine ⟨derived n s, exec_derivePerm_ok hn hgood, IsPerm_derived hn s, ?_⟩
  rintro rfl
  exact ⟨_, exec_perm_ok rfl (IsPerm_derived hn s), rfl⟩

/-- Settles O26: the sum of the code points does not depend on their order. -/
theorem anagramSeedsGiveOneTable : Obligations.AnagramSeedsGiveOneTable := by
  intro n s s' hn hgood hgood' hseeds
  have hsum : seedSum s = seedSum s' := (hseeds.map BitVec.toNat).sum_eq
  refine ⟨_, _, exec_derivePerm_ok hn hgood, exec_derivePerm_ok hn hgood', fun k hk => ?_⟩
  calc PT (derived n s) k
      = (Config.permShuffle (seedSum s) n.toNat ⟨k, hk⟩).val := PT_derived hn s ⟨k, hk⟩
    _ = (Config.permShuffle (seedSum s') n.toNat ⟨k, hk⟩).val := by rw [hsum]
    _ = PT (derived n s') k := (PT_derived hn s' ⟨k, hk⟩).symm

/-! ### What changes PT -/

/-- The last 0x400 bytes of the window are PT's (R62). -/
theorem le_of_regAt_pt {off : Nat} {k : Fin 256} (h : regAt off = .pt k) : 0x400 ≤ off := by
  revert h
  fun_cases regAt off
  case case17 hge => exact fun _ => Nat.le_of_not_lt hge
  all_goals nofun

/-- A register write that changes PT is a write to one of its entries. -/
theorem writeReg_changes_pt {r : Reg} {v : Word} {s : State} (h : (writeReg r v s).pt ≠ s.pt) : ∃ k, r = .pt k := by
  cases r
  case pt k => exact ⟨k, rfl⟩
  case seedPush => exact absurd (seedPush_pt v s) h
  case ptSize =>
    simp only [writeReg] at h
    split at h <;> exact absurd rfl h
  all_goals exact absurd rfl h

theorem BlockCommand.pt {i : Instr} (hi : BlockCommand i) {s t : State} (h : exec i s = .next t) : t.pt = s.pt := by
  obtain ⟨f, hf⟩ := exec_blockCommand hi
  rw [hf] at h
  rw [blockCommand_frame h]

/-- A command that changes PT is INVERT or DERIVEPERM (R141). -/
theorem exec_changes_pt {i : Instr} {s t : State} (h : exec i s = .next t) (hpt : t.pt ≠ s.pt) :
    i = .invert ∨ ∃ n, i = .derivePerm n := by
  cases i
  case invert => exact .inl rfl
  case derivePerm n => exact .inr ⟨n, rfl⟩
  case enc => exact absurd (BlockCommand.pt (.inl rfl) h) hpt
  case dec => exact absurd (BlockCommand.pt (.inr (.inl rfl)) h) hpt
  case perm => exact absurd (BlockCommand.pt (.inr (.inr (.inl rfl))) h) hpt
  case invPerm => exact absurd (BlockCommand.pt (.inr (.inr (.inr rfl))) h) hpt
  case ldblk | ldkey | deriveKey =>
    simp only [exec, execLdblk, execLdkey, execDeriveKey] at h
    split at h <;> cases h <;> exact absurd rfl hpt
  all_goals
    cases h
    exact absurd rfl hpt

/-- Settles O32, by the ways a step can lead to a next state. -/
theorem whatChangesTheTable : Obligations.WhatChangesTheTable := by
  intro s t h hpt
  cases steps_of_step h with
  | idle => exact absurd rfl hpt
  | read => exact absurd rfl hpt
  | illegal => exact absurd rfl hpt
  | reset hb => exact ⟨_, _, hb, .inr (.inr rfl)⟩
  | write hb =>
    obtain ⟨k, hk⟩ := writeReg_changes_pt hpt
    exact ⟨_, _, hb, .inl ⟨_, _, rfl, le_of_regAt_pt hk⟩⟩
  | command hb hd hx =>
    refine ⟨_, _, hb, .inr (.inl ⟨_, rfl, ?_⟩)⟩
    rcases exec_changes_pt hx hpt with rfl | ⟨n, rfl⟩
    · exact .inr (encode_of_decode hd).symm
    · exact .inl (opField_of_decode hd)

end Sys2Proof.Machine

namespace Sys2Proof.Machine

open Statements (PT TouchesSeed)

/-! ### Unicode scalar values -/

/-- The range test of R151 as the statements write it. -/
theorem isScalar_iff (v : Word) :
    isScalar v = true ↔ v.toNat ≤ 0xD7FF ∨ (0xE000 ≤ v.toNat ∧ v.toNat ≤ 0x10FFFF) := by
  simp [isScalar]

/-- A scalar value keeps its value in the 21 bits of a code point. -/
theorem toNat_codePoint {v : Word} (hv : isScalar v = true) : (v.setWidth 21 : CodePoint).toNat = v.toNat := by
  rw [isScalar_iff] at hv
  rw [BitVec.toNat_setWidth]
  omega

theorem charWord_toNat (c : Char) : (charWord c).toNat = c.toNat := by
  have hlt : c.toNat < 2 ^ 32 := c.val.toNat_lt
  rw [charWord, BitVec.toNat_ofNat, Nat.mod_eq_of_lt hlt]

/-- A character of a text is a Unicode scalar value by its type. -/
theorem isScalar_charWord (c : Char) : isScalar (charWord c) = true := by
  have hvalid : c.toNat < 0xD800 ∨ 0xDFFF < c.toNat ∧ c.toNat < 0x110000 := c.valid
  rw [isScalar_iff, charWord_toNat]
  omega

/-! ### What one push makes of the seed port -/

theorem toNat_seedLen_succ {s : State} (hroom : s.seedLen.toNat < 256) :
    (s.seedLen + 1).toNat = s.seedLen.toNat + 1 := by
  bv_omega

section

variable {v : Word} {s : State} (hv : isScalar v = true)
include hv

theorem seedPush_seedLen (hs : s.seedLen.toNat ≤ 256) :
    (seedPush v s).seedLen.toNat = min (s.seedLen.toNat + 1) 256 := by
  by_cases hfull : s.seedLen.toNat = 256
  · rw [seedPush_refused (.inr hfull)]
    simp [hfull]
  · have hnext := toNat_seedLen_succ (s := s) (by omega)
    rw [seedPush_taken hv hfull, hnext]
    omega

theorem seedPush_seedBad : (seedPush v s).seedBad = (s.seedBad || decide (s.seedLen.toNat = 256)) := by
  by_cases hfull : s.seedLen.toNat = 256
  · rw [seedPush_refused (.inr hfull)]
    simp [hfull]
  · rw [seedPush_taken hv hfull]
    simp [hfull]

/-- While the port has room, a push appends to the seed held (R150, R153). -/
theorem currentSeed_seedPush (hroom : s.seedLen.toNat < 256) :
    currentSeed (seedPush v s) = currentSeed s ++ [v.setWidth 21] := by
  have hlen : (seedPush v s).seedLen.toNat = s.seedLen.toNat + 1 := by
    rw [seedPush_seedLen hv hroom.le]
    omega
  rw [currentSeed, hlen, seedPush_taken hv hroom.ne, currentSeed]
  simp [List.take_add_one, List.take_set_of_le, hroom]

end

/-! ### What a sequence of pushes makes of it -/

section

variable {ws : List Word} {s : State} (hws : ∀ w ∈ ws, isScalar w = true)
include hws

/-- SEEDLEN counts the pushes and stops at 256. -/
theorem seedPushes_seedLen (hs : s.seedLen.toNat ≤ 256) :
    (ws.foldl (fun u w => seedPush w u) s).seedLen.toNat = min (s.seedLen.toNat + ws.length) 256 := by
  induction ws generalizing s with
  | nil => simpa using hs
  | cons w ws ih =>
    obtain ⟨hw, hws⟩ := List.forall_mem_cons.mp hws
    have hlen := seedPush_seedLen hw hs
    rw [List.foldl_cons, ih hws (by omega), List.length_cons]
    omega

/-- The first push that finds 256 held sets SEEDBAD, which is sticky. -/
theorem seedPushes_seedBad (hs : s.seedLen.toNat ≤ 256) :
    (ws.foldl (fun u w => seedPush w u) s).seedBad =
      (s.seedBad || decide (256 < s.seedLen.toNat + ws.length)) := by
  induction ws generalizing s with
  | nil => simpa using fun h => absurd hs h.not_ge
  | cons w ws ih =>
    obtain ⟨hw, hws⟩ := List.forall_mem_cons.mp hws
    have hlen := seedPush_seedLen hw hs
    rw [List.foldl_cons, ih hws (by omega), seedPush_seedBad hw, Bool.or_assoc, ← Bool.decide_or, List.length_cons]
    congr 2
    exact propext (by omega)

/-- As long as they fit, the code points pushed follow the seed held. -/
theorem currentSeed_seedPushes (hfit : s.seedLen.toNat + ws.length ≤ 256) :
    currentSeed (ws.foldl (fun u w => seedPush w u) s) = currentSeed s ++ ws.map (BitVec.setWidth 21) := by
  induction ws generalizing s with
  | nil => simp
  | cons w ws ih =>
    obtain ⟨hw, hws⟩ := List.forall_mem_cons.mp hws
    rw [List.length_cons] at hfit
    have hlen := seedPush_seedLen hw (s := s) (by omega)
    rw [List.foldl_cons, ih hws (by omega), currentSeed_seedPush hw (by omega)]
    simp

end

/-- Settles O34: the write is one `seedPush`, which is refused or taken. -/
theorem seedPushAppendsOrDrops : Obligations.SeedPushAppendsOrDrops := by
  intro s v rest hb hs
  have hstep : step s = .next (seedPush v { s with bus := rest }) := step_write (r := .seedPush) hb rfl (by decide)
  rw [hstep, ← isScalar_iff]
  refine ⟨fun h => ?_, fun hv hfull => ?_⟩
  · exact congrArg _ (seedPush_refused (h.imp Bool.eq_false_of_not_eq_true (congrArg BitVec.toNat)))
  · have hfull' : s.seedLen.toNat ≠ 256 := fun h => hfull (BitVec.eq_of_toNat_eq h)
    refine ⟨_, _, congrArg _ (seedPush_taken hv hfull'), ?_, fun k => ?_⟩
    · exact toNat_seedLen_succ (lt_of_le_of_ne hs hfull')
    · by_cases hk : k.val = s.seedLen.toNat
      · rw [if_pos hk]
        simp [hk, toNat_codePoint hv]
      · rw [if_neg hk]
        simp [Ne.symm hk]

/-- Settles O35: the pushes append while they fit, and the length stops at 256. -/
theorem seedTextIsAppended : Obligations.SeedTextIsAppended := by
  intro text s hs
  have hws : ∀ w ∈ text.map charWord, isScalar w = true := by simp [isScalar_charWord]
  have hrun := performAll_seedPushes (text.map charWord) s
  have hlen := seedPushes_seedLen hws hs
  have hbad := seedPushes_seedBad hws hs
  rw [List.map_map] at hrun
  rw [List.length_map] at hlen hbad
  refine ⟨_, hrun, seedPushes_frame _ s, fun hfit => ⟨?_, ?_⟩, fun hover => ⟨?_, ?_⟩⟩
  · simp [hbad, hfit.not_gt]
  · have hseed := currentSeed_seedPushes hws (by rwa [List.length_map])
    rw [← currentSeed, hseed, List.map_append, ← currentSeed]
    simp [toNat_codePoint (isScalar_charWord _), charWord_toNat]
  · simp [hbad, hover]
  · exact BitVec.eq_of_toNat_eq (hlen.trans (min_eq_right hover.le))

/-! ### DERIVEKEY -/

theorem exec_deriveKey_seed {s : State} (hbad : s.seedBad = true) :
    exec .deriveKey s = .next { s with err := 6, eany := true, lastop := 0x05 } :=
  if_pos hbad

theorem exec_deriveKey_ok {s : State} (hgood : s.seedBad = false) :
    exec .deriveKey s =
      .next { s with key := splitDigest (Config.kdfHash (currentSeed s)), err := 0, lastop := 0x05 } :=
  if_neg (by rw [hgood]; decide)

/-- Settles O36, by the two ends of DERIVEKEY and the slices of the digest (R155). -/
theorem deriveKeyEffect : Obligations.DeriveKeyEffect :=
  ⟨rfl, fun _ => ⟨exec_deriveKey_seed, fun hgood =>
    ⟨_, exec_deriveKey_ok hgood, fun i => getElem_splitDigest _ i i.isLt⟩⟩⟩

/-! ### What leaves the seed port alone -/

/-- The two states hold the same seed port (R28). -/
structure SameSeedPort (s t : State) : Prop where
  seed : t.seed = s.seed
  seedLen : t.seedLen = s.seedLen
  seedBad : t.seedBad = s.seedBad

theorem SameSeedPort.trans {s t u : State} (h : SameSeedPort s t) (h' : SameSeedPort t u) : SameSeedPort s u :=
  ⟨h'.seed.trans h.seed, h'.seedLen.trans h.seedLen, h'.seedBad.trans h.seedBad⟩

theorem SameSeedPort.of_withBus {s t : State} {b : List BusEvent} (h : SameSeedPort { s with bus := b } t) :
    SameSeedPort s t := ⟨h.seed, h.seedLen, h.seedBad⟩

theorem SameSeedPort.currentSeed {s t : State} (h : SameSeedPort s t) : currentSeed t = currentSeed s := by
  rw [Machine.currentSeed, h.seed, h.seedLen, Machine.currentSeed]

theorem SameSeedPort.seedSum {s t : State} (h : SameSeedPort s t) : seedSum t = seedSum s := by
  rw [Machine.seedSum, h.currentSeed, Machine.seedSum]

theorem writeReg_sameSeedPort {r : Reg} (hr : r ≠ .seedPush) (v : Word) (s : State) :
    SameSeedPort s (writeReg r v s) := by
  cases r
  case seedPush => exact absurd rfl hr
  case ptSize =>
    simp only [writeReg]
    split <;> exact ⟨rfl, rfl, rfl⟩
  all_goals exact ⟨rfl, rfl, rfl⟩

/-- SEED_PUSH stands at 0x010 alone (R62). -/
theorem off_of_regAt_seedPush {off : Nat} (h : regAt off = .seedPush) : off = 0x010 := by
  revert h
  fun_cases regAt off
  case case5 hoff => exact fun _ => hoff
  all_goals nofun

theorem BlockCommand.sameSeedPort {i : Instr} (hi : BlockCommand i) {s t : State} (h : exec i s = .next t) :
    SameSeedPort s t := by
  obtain ⟨f, hf⟩ := exec_blockCommand hi
  rw [hf] at h
  rw [blockCommand_frame h]
  exact ⟨rfl, rfl, rfl⟩

/-- No command but CLRSEED touches the seed port (R152, R157). -/
theorem exec_sameSeedPort {i : Instr} (hi : i ≠ .clrSeed) {s t : State} (h : exec i s = .next t) :
    SameSeedPort s t := by
  cases i
  case clrSeed => exact absurd rfl hi
  case enc => exact BlockCommand.sameSeedPort (.inl rfl) h
  case dec => exact BlockCommand.sameSeedPort (.inr (.inl rfl)) h
  case perm => exact BlockCommand.sameSeedPort (.inr (.inr (.inl rfl))) h
  case invPerm => exact BlockCommand.sameSeedPort (.inr (.inr (.inr rfl))) h
  case ldblk | ldkey | deriveKey | invert =>
    simp only [exec, execLdblk, execLdkey, execDeriveKey, execInvert] at h
    split at h <;> cases h <;> exact ⟨rfl, rfl, rfl⟩
  case derivePerm =>
    simp only [exec, execDerivePerm] at h
    split at h
    · cases h
      exact ⟨rfl, rfl, rfl⟩
    · split at h <;> cases h <;> exact ⟨rfl, rfl, rfl⟩
  all_goals
    cases h
    exact ⟨rfl, rfl, rfl⟩

/-- A step whose event is none of `TouchesSeed` keeps the seed port. -/
theorem step_sameSeedPort {s t : State} (hevent : ∀ e rest, s.bus = e :: rest → ¬ TouchesSeed e)
    (h : step s = .next t) : SameSeedPort s t := by
  cases steps_of_step h with
  | idle => exact ⟨rfl, rfl, rfl⟩
  | read => exact ⟨rfl, rfl, rfl⟩
  | illegal => exact ⟨rfl, rfl, rfl⟩
  | reset hb => exact absurd (.inr (.inr rfl)) (hevent _ _ hb)
  | write hb =>
    refine .of_withBus (writeReg_sameSeedPort (fun hr => hevent _ _ hb (.inl ?_)) _ _)
    rw [off_of_regAt_seedPush hr]
    exact ⟨_, _, rfl⟩
  | command hb hd hx =>
    refine .of_withBus (exec_sameSeedPort (fun hi => hevent _ _ hb (.inr (.inl ?_))) hx)
    rw [← encode_of_decode hd, hi]
    exact ⟨_, rfl⟩

theorem perform_sameSeedPort {e : BusEvent} (he : ¬ TouchesSeed e) {s t : State} (h : perform e s = .next t) :
    SameSeedPort s t := by
  have hstep : step { s with bus := e :: s.bus } = .next t := (step_cons rfl).trans h
  refine .of_withBus (step_sameSeedPort (fun e' rest hb => ?_) hstep)
  rwa [← (List.cons.inj hb).1]

theorem performAll_sameSeedPort {es : List BusEvent} (hes : ∀ e ∈ es, ¬ TouchesSeed e) {s t : State}
    (h : performAll es s = .next t) : SameSeedPort s t := by
  induction es generalizing s with
  | nil =>
    cases h
    exact ⟨rfl, rfl, rfl⟩
  | cons e es ih =>
    obtain ⟨he, hes⟩ := List.forall_mem_cons.mp hes
    cases hp : perform e s with
    | next u =>
      rw [performAll_cons_next hp] at h
      exact (perform_sameSeedPort he hp).trans (ih hes h)
    | fault f => cases f
    | refused r => cases (performAll_cons_refused hp es).symm.trans h

/-- Settles O37: both derivations read the seed port alone, and no event between them touched it. -/
theorem derivationIsStable : Obligations.DerivationIsStable := by
  intro es s t hes hgood h
  have hport := performAll_sameSeedPort hes h
  have hgood' : t.seedBad = false := hport.seedBad.trans hgood
  refine ⟨⟨_, _, exec_deriveKey_ok hgood, exec_deriveKey_ok hgood', ?_⟩, fun n hn =>
    ⟨_, _, exec_derivePerm_ok hn hgood, exec_derivePerm_ok hn hgood', rfl, fun k hk => ?_⟩⟩
  · exact congrArg (splitDigest <| Config.kdfHash ·) hport.currentSeed
  · calc PT (derived n t) k
        = (Config.permShuffle (seedSum t) n.toNat ⟨k, hk⟩).val := PT_derived hn t ⟨k, hk⟩
      _ = (Config.permShuffle (seedSum s) n.toNat ⟨k, hk⟩).val := by rw [hport.seedSum]
      _ = PT (derived n s) k := (PT_derived hn s ⟨k, hk⟩).symm

end Sys2Proof.Machine

namespace Sys2Proof.Machine

open Statements (PT IsPerm F G commands forwardPaths inversePaths)

/-! ### One segment replaced -/

theorem setSeg_setSeg (B : Block) (i : Fin 8) (u v : Word) : setSeg (setSeg B i u) i v = setSeg B i v := by
  apply block_ext_seg
  intro j
  by_cases hj : j = i <;> simp [hj]

theorem setSeg_seg (B : Block) (i : Fin 8) : setSeg B i (seg B i) = B := by
  apply block_ext_seg
  intro j
  by_cases hj : j = i <;> simp [hj]

theorem seg_setSeg_same (B : Block) (i : Fin 8) (v : Word) : seg (setSeg B i v) i = v := by
  rw [seg_setSeg, if_pos rfl]

/-! ### EXPAND, SUBST, RSUBST, REXPAND -/

theorem exec_expand (i : Fin 8) (s : State) :
    exec (.expand i) s = .next { s with w := Config.segTransform.expand (seg s.blk i), err := 0, lastop := 0x0B } := rfl

theorem exec_subst (i : Fin 8) (s : State) :
    exec (.subst i) s =
      .next { s with blk := setSeg s.blk i (Config.segTransform.subst s.w), err := 0, lastop := 0x0C } := rfl

theorem exec_rsubst (i : Fin 8) (s : State) :
    exec (.rsubst i) s = .next { s with w := Config.segTransform.rsubst (seg s.blk i), err := 0, lastop := 0x0D } := rfl

theorem exec_rexpand (i : Fin 8) (s : State) :
    exec (.rexpand i) s =
      .next { s with blk := setSeg s.blk i (Config.segTransform.rexpand s.w), err := 0, lastop := 0x0E } := rfl

/-- Settles O38: SUBST and REXPAND set segment i and no other. -/
theorem segmentCommandEffects : Obligations.SegmentCommandEffects := fun i s =>
  ⟨⟨rfl, exec_expand i s⟩,
    ⟨rfl, _, exec_subst i s, fun j => seg_setSeg s.blk i j _⟩,
    ⟨rfl, exec_rsubst i s⟩,
    ⟨rfl, _, exec_rexpand i s, fun j => seg_setSeg s.blk i j _⟩⟩

/-! ### F and G -/

/-- The contract of R170 for the machine's own mappings. -/
theorem leftInverse_G_F : Function.LeftInverse G F := Config.segTransform.roundTrip

/-- F has a left inverse, so it is injective; on the finite set of words it is then surjective (R171). -/
theorem rightInverse_G_F : Function.RightInverse G F :=
  leftInverse_G_F.rightInverse_of_surjective (Finite.surjective_of_injective leftInverse_G_F.injective)

/-- Settles O40. -/
theorem forwardAndBackwardAreInverse : Obligations.ForwardAndBackwardAreInverse := fun x =>
  ⟨leftInverse_G_F x, rightInverse_G_F x⟩

/-! ### Commands one after the other -/

theorem performAll_commands_cons {i : Instr} (hi : i.wf = true) {s t : State} (h : exec i s = .next t)
    (is : List Instr) : performAll (commands (i :: is)) s = performAll (commands is) t :=
  performAll_cons_next ((perform_assemble hi s).trans h) _

theorem commands_append (is js : List Instr) : commands (is ++ js) = commands is ++ commands js :=
  List.map_append

/-- Settles O39: REXPAND i sets segment i to G of F of what it was. -/
theorem segmentRoundTrip : Obligations.SegmentRoundTrip := by
  intro i s
  refine ⟨_, (performAll_commands_cons rfl (exec_expand i s) _).trans <|
    (performAll_commands_cons rfl (exec_subst i _) _).trans <|
    (performAll_commands_cons rfl (exec_rsubst i _) _).trans <|
    performAll_commands_cons rfl (exec_rexpand i _) [], ?_⟩
  change setSeg (setSeg s.blk i (F (seg s.blk i))) i (G (seg (setSeg s.blk i (F (seg s.blk i))) i)) = s.blk
  rw [setSeg_setSeg, seg_setSeg_same, leftInverse_G_F, setSeg_seg]

/-! ### The two paths of one segment -/

/-- EXPAND i, SUBST i, KMIX i: the forward path of lane i (R177). -/
theorem performAll_forwardPath (i : Fin 8) (s : State) :
    performAll (commands [.expand i, .subst i, .kmix i]) s =
      .next { s with
        w := Config.segTransform.expand (seg s.blk i)
        blk := setSeg s.blk i (F (seg s.blk i) ^^^ s.key[i])
        err := 0, lastop := 0x0A } := by
  rw [performAll_commands_cons rfl (exec_expand i s), performAll_commands_cons rfl (exec_subst i _),
    performAll_commands_cons rfl (exec_kmix i _), setSeg_setSeg, seg_setSeg_same]
  rfl

/-- KMIX i, RSUBST i, REXPAND i: the inverse path of lane i (R177). -/
theorem performAll_inversePath (i : Fin 8) (s : State) :
    performAll (commands [.kmix i, .rsubst i, .rexpand i]) s =
      .next { s with
        w := Config.segTransform.rsubst (seg s.blk i ^^^ s.key[i])
        blk := setSeg s.blk i (G (seg s.blk i ^^^ s.key[i]))
        err := 0, lastop := 0x0E } := by
  rw [performAll_commands_cons rfl (exec_kmix i s), performAll_commands_cons rfl (exec_rsubst i _),
    performAll_commands_cons rfl (exec_rexpand i _), setSeg_setSeg, seg_setSeg_same]
  rfl

/-- Settles O41: each path ends in a state that is written out. -/
theorem stepwiseSegmentPaths : Obligations.StepwiseSegmentPaths := fun i s =>
  ⟨⟨_, performAll_forwardPath i s, fun j => seg_setSeg s.blk i j _, rfl, rfl, rfl, rfl⟩,
    ⟨_, performAll_inversePath i s, fun j => seg_setSeg s.blk i j _, rfl, rfl, rfl, rfl⟩⟩

/-! ### A path run over several lanes -/

/-- The commands `path i` make of segment i what `f` makes of it and of KEY[i]; they keep the other segments and KEY. -/
def RunsLane (path : Fin 8 → List Instr) (f : Word → Word → Word) : Prop :=
  ∀ (i : Fin 8) (s : State), ∃ t, performAll (commands (path i)) s = .next t ∧
    t.blk = setSeg s.blk i (f (seg s.blk i) s.key[i]) ∧ t.key = s.key

theorem runsLane_forward : RunsLane (fun i => [.expand i, .subst i, .kmix i]) (fun v k => F v ^^^ k) := fun i s =>
  ⟨_, performAll_forwardPath i s, rfl, rfl⟩

theorem runsLane_inverse : RunsLane (fun i => [.kmix i, .rsubst i, .rexpand i]) (fun v k => G (v ^^^ k)) := fun i s =>
  ⟨_, performAll_inversePath i s, rfl, rfl⟩

section

variable {path : Fin 8 → List Instr} {f : Word → Word → Word} (hpath : RunsLane path f)
include hpath

/-- Run over different lanes one after the other, a path changes each of them once, and no other lane. -/
theorem RunsLane.performAll_lanes {is : List (Fin 8)} (hnd : is.Nodup) (s : State) :
    ∃ t, performAll (commands (is.flatMap path)) s = .next t ∧
      ∀ j : Fin 8, seg t.blk j = if j ∈ is then f (seg s.blk j) s.key[j] else seg s.blk j := by
  induction is generalizing s with
  | nil => exact ⟨s, rfl, fun j => (if_neg List.not_mem_nil).symm⟩
  | cons i is ih =>
    obtain ⟨hi, hnd⟩ := List.nodup_cons.mp hnd
    obtain ⟨t, hrun, hblk, hkey⟩ := hpath i s
    obtain ⟨u, hrest, hseg⟩ := ih hnd t
    refine ⟨u, ?_, fun j => ?_⟩
    · rw [List.flatMap_cons, commands_append, performAll_append_next hrun, hrest]
    · rw [hseg, hblk, hkey, seg_setSeg]
      by_cases hj : j = i
      · subst hj
        simp [hi]
      · simp [hj]

theorem RunsLane.performAll_allLanes (s : State) :
    ∃ t, performAll (commands ((List.finRange 8).flatMap path)) s = .next t ∧
      ∀ j : Fin 8, seg t.blk j = f (seg s.blk j) s.key[j] := by
  obtain ⟨t, hrun, hseg⟩ := hpath.performAll_lanes (List.nodup_finRange 8) s
  exact ⟨t, hrun, fun j => (hseg j).trans (if_pos (List.mem_finRange j))⟩

end

theorem performAll_forwardPaths (s : State) : ∃ t, performAll (commands forwardPaths) s = .next t ∧
    t.blk = encLanes Config.segTransform.toSegMaps s.key s.blk := by
  obtain ⟨t, hrun, hseg⟩ := runsLane_forward.performAll_allLanes s
  rw [forwardPaths]
  exact ⟨t, hrun, block_ext_seg fun j => (hseg j).trans (seg_encLanes _ _ _ j).symm⟩

theorem performAll_inversePaths (s : State) : ∃ t, performAll (commands inversePaths) s = .next t ∧
    t.blk = decLanes Config.segTransform.toSegMaps s.key s.blk := by
  obtain ⟨t, hrun, hseg⟩ := runsLane_inverse.performAll_allLanes s
  rw [inversePaths]
  exact ⟨t, hrun, block_ext_seg fun j => (hseg j).trans (seg_decLanes _ _ _ j).symm⟩

/-! ### ENC and DEC, with the identity table too -/

theorem exec_enc_ok {s : State} (h : s.ptSize = 256) (hp : IsPerm (PT s) 256) :
    exec .enc s = .next { s with
      blk := encrypt Config.segTransform.toSegMaps s.key (currentTable s) s.blk, err := 0, lastop := 0x03 } :=
  blockCommand_permutation h hp .enc (encrypt Config.segTransform.toSegMaps s.key)

theorem exec_dec_ok {s : State} (h : s.ptSize = 256) (hp : IsPerm (PT s) 256) :
    exec .dec s = .next { s with
      blk := decrypt Config.segTransform.toSegMaps s.key (currentTable s) s.blk, err := 0, lastop := 0x04 } :=
  blockCommand_permutation h hp .dec (decrypt Config.segTransform.toSegMaps s.key)

theorem IsPerm_of_identity {T : Nat → Nat} {n : Nat} (hid : ∀ k, k < n → T k = k) : IsPerm T n :=
  ⟨fun k hk => (hid k hk).symm ▸ hk, fun j k hj hk hjk => by rwa [hid j hj, hid k hk] at hjk⟩

section

variable {s : State} (h : s.ptSize = 256) (hid : ∀ k, k < 256 → PT s k = k)
include h hid

theorem applyPerm_identity (B : Block) : applyPerm B (currentTable s) = B :=
  block_ext_pos fun i hi => by rw [pos_applyPerm_currentTable h B hi, hid i hi]

theorem applyPerm_invertTable_identity (B : Block) : applyPerm B (invertTable (currentTable s)) = B := by
  have hperm := (isPerm_currentTable_of_full_iff h).mpr (IsPerm_of_identity hid)
  have hcancel := applyPerm_invertTable B _ (currentTable_length_of_full h) hperm
  rwa [applyPerm_identity h hid] at hcancel

theorem encrypt_identity (m : SegMaps) (key : Vector Word 8) (B : Block) :
    encrypt m key (currentTable s) B = encLanes m key B := by
  rw [encrypt, applyPerm_identity h hid]

theorem decrypt_identity (m : SegMaps) (key : Vector Word 8) (B : Block) :
    decrypt m key (currentTable s) B = decLanes m key B := by
  rw [decrypt, applyPerm_invertTable_identity h hid]

end

/-- Settles O42: with the identity table ENC and DEC are their lanes, and the paths run every lane once. -/
theorem stepwisePathsEqualEncAndDec : Obligations.StepwisePathsEqualEncAndDec := by
  intro s h hid
  have hp := IsPerm_of_identity hid
  obtain ⟨t, hforward, hblkF⟩ := performAll_forwardPaths s
  obtain ⟨u, hinverse, hblkI⟩ := performAll_inversePaths s
  exact ⟨⟨_, t, exec_enc_ok h hp, hforward, hblkF.trans (encrypt_identity h hid _ _ _).symm⟩,
    ⟨_, u, exec_dec_ok h hp, hinverse, hblkI.trans (decrypt_identity h hid _ _ _).symm⟩⟩

end Sys2Proof.Machine

namespace Sys2Proof.Machine

open Statements (PT IsPerm F G)

/-! ### ENC and DEC lane by lane -/

/-- Lane i of ENC, in terms of the machine's own F (R193). -/
theorem seg_encLanes_F (key : Vector Word 8) (B : Block) (i : Fin 8) :
    seg (encLanes Config.segTransform.toSegMaps key B) i = F (seg B i) ^^^ key[i] := seg_encLanes _ key B i

/-- Lane i of DEC, in terms of the machine's own G (R195). -/
theorem seg_decLanes_G (key : Vector Word 8) (B : Block) (i : Fin 8) :
    seg (decLanes Config.segTransform.toSegMaps key B) i = G (seg B i ^^^ key[i]) := seg_decLanes _ key B i

/-- Settles O43, by the three ends of a block command. -/
theorem encEffect : Obligations.EncEffect := by
  have hblock : BlockCommand .enc := .inl rfl
  exact ⟨rfl, fun s => ⟨hblock.exec_lengthMismatch, fun h => hblock.exec_notPermutation h, fun h hp =>
    ⟨_, _, exec_enc_ok h hp, fun _ => pos_applyPerm_currentTable h s.blk, seg_encLanes_F s.key _⟩⟩⟩

/-- Settles O44, by the three ends of a block command. -/
theorem decEffect : Obligations.DecEffect := by
  have hblock : BlockCommand .dec := .inr (.inl rfl)
  exact ⟨rfl, fun s => ⟨hblock.exec_lengthMismatch, fun h => hblock.exec_notPermutation h, fun h hp =>
    ⟨_, _, exec_dec_ok h hp, seg_decLanes_G s.key s.blk, fun _ => pos_applyPerm_invertTable h hp _⟩⟩⟩

/-- Settles O46: each of the four runs `blockCommand`, which writes BLK and STATUS alone. -/
theorem blockCommandsWriteOnlyBlockAndStatus : Obligations.BlockCommandsWriteOnlyBlockAndStatus := by
  intro i s t hi h
  obtain ⟨f, hf⟩ := exec_blockCommand hi
  rw [hf] at h
  exact blockCommand_frame h

/-! ### The round trip -/

/-- In each lane the two XORs with KEY[i] cancel, and then G undoes F (R196). -/
theorem decLanes_encLanes (key : Vector Word 8) (B : Block) :
    decLanes Config.segTransform.toSegMaps key (encLanes Config.segTransform.toSegMaps key B) = B :=
  block_ext_seg fun i => by
    rw [seg_decLanes_G, seg_encLanes_F, BitVec.xor_assoc, BitVec.xor_self, BitVec.xor_zero, leftInverse_G_F]

/-- In each lane F undoes G, which R171 allows, and then the two XORs with KEY[i] cancel (R196). -/
theorem encLanes_decLanes (key : Vector Word 8) (B : Block) :
    encLanes Config.segTransform.toSegMaps key (decLanes Config.segTransform.toSegMaps key B) = B :=
  block_ext_seg fun i => by
    rw [seg_encLanes_F, seg_decLanes_G, rightInverse_G_F, BitVec.xor_assoc, BitVec.xor_self, BitVec.xor_zero]

section

variable {T : List Byte} (hlen : T.length = 256) (hperm : isPerm T 256 = true)
include hlen hperm

theorem decrypt_encrypt (key : Vector Word 8) (B : Block) :
    decrypt Config.segTransform.toSegMaps key T (encrypt Config.segTransform.toSegMaps key T B) = B := by
  rw [decrypt, encrypt, decLanes_encLanes, applyPerm_invertTable B T hlen hperm]

theorem encrypt_decrypt (key : Vector Word 8) (B : Block) :
    encrypt Config.segTransform.toSegMaps key T (decrypt Config.segTransform.toSegMaps key T B) = B := by
  rw [encrypt, decrypt, applyPerm_of_invertTable _ T hlen hperm, encLanes_decLanes]

end

/-- Settles O45: the second command reads the same keys and table, which the first one does not write. -/
theorem encAndDecRoundTrip : Obligations.EncAndDecRoundTrip := by
  intro s h hp
  have hlen := currentTable_length_of_full h
  have hperm := (isPerm_currentTable_of_full_iff h).mpr hp
  exact ⟨⟨_, _, exec_enc_ok h hp, rfl, exec_dec_ok h hp, rfl, decrypt_encrypt hlen hperm s.key s.blk⟩,
    ⟨_, _, exec_dec_ok h hp, rfl, exec_enc_ok h hp, rfl, encrypt_decrypt hlen hperm s.key s.blk⟩⟩

/-! ### Positions, lanes and the table -/

/-- A segment is determined by its 32 positions (R14). -/
theorem seg_ext_pos {A B : Block} {i : Fin 8} (h : ∀ m, m < 32 → pos A (32 * i.val + m) = pos B (32 * i.val + m)) :
    seg A i = seg B i := by
  apply BitVec.eq_of_getLsbD_eq
  intro n hn
  have hpos := h (31 - n) (by omega)
  rwa [pos_eq_seg A i _ (by omega), pos_eq_seg B i _ (by omega), show 31 - (31 - n) = n by omega] at hpos

/-- Every position is one of the 32 of one lane (R14). -/
theorem exists_lane {p : Nat} (hp : p < 256) : ∃ (i : Fin 8) (m : Nat), m < 32 ∧ p = 32 * i.val + m :=
  ⟨⟨p / 32, by omega⟩, p % 32, by omega, (Nat.div_add_mod p 32).symm⟩

/-- A permutation table of 256 entries holds every position. -/
theorem exists_PT_eq {s : State} (h : s.ptSize = 256) (hp : IsPerm (PT s) 256) {q : Nat} (hq : q < 256) :
    ∃ p, p < 256 ∧ PT s p = q := by
  have hlen := currentTable_length_of_full h
  obtain ⟨p, hlt, heq⟩ := isPerm_surjective hlen ((isPerm_currentTable_of_full_iff h).mpr hp) q hq
  exact ⟨p, by omega, (PT_eq_currentTable s hlt).trans heq⟩

/-! ### What a change reaches -/

/-- Blocks that differ only at position PT[i] are permuted to blocks that differ only in lane i/32 (R201). -/
theorem seg_applyPerm_eq_of_agree {s : State} (h : s.ptSize = 256) (hp : IsPerm (PT s) 256) {A B : Block} {i : Nat}
    (hi : i < 256) (hAB : ∀ q, q < 256 → q ≠ PT s i → pos A q = pos B q) {j : Fin 8} (hj : j.val ≠ i / 32) :
    seg (applyPerm A (currentTable s)) j = seg (applyPerm B (currentTable s)) j := by
  obtain ⟨hlt, hinj⟩ := hp
  apply seg_ext_pos
  intro m hm
  have hpos : 32 * j.val + m < 256 := by omega
  have hne : PT s (32 * j.val + m) ≠ PT s i := fun heq => by
    have := hinj _ _ hpos hi heq
    omega
  rw [pos_applyPerm_currentTable h A hpos, pos_applyPerm_currentTable h B hpos, hAB _ (hlt _ hpos) hne]

/-- Blocks that differ only in lane j are sent by the inverse permutation to blocks that differ only at the positions PT[32j..32j+31] (R201). -/
theorem pos_applyPerm_invertTable_eq_of_agree {s : State} (h : s.ptSize = 256) (hp : IsPerm (PT s) 256) {A B : Block}
    {j : Fin 8} (hAB : ∀ k : Fin 8, k ≠ j → seg A k = seg B k) {q : Nat} (hq : q < 256)
    (hout : ∀ m, m < 32 → PT s (32 * j.val + m) ≠ q) :
    pos (applyPerm A (invertTable (currentTable s))) q = pos (applyPerm B (invertTable (currentTable s))) q := by
  obtain ⟨p, hlt, rfl⟩ := exists_PT_eq h hp hq
  rw [pos_applyPerm_invertTable h hp A hlt, pos_applyPerm_invertTable h hp B hlt]
  obtain ⟨k, m, hm, rfl⟩ := exists_lane hlt
  have hkj : k ≠ j := fun hk => hout m hm (by rw [hk])
  rw [pos_eq_seg A k m hm, pos_eq_seg B k m hm, hAB k hkj]

theorem seg_encLanes_congr (key : Vector Word 8) {A B : Block} {i : Fin 8} (h : seg A i = seg B i) :
    seg (encLanes Config.segTransform.toSegMaps key A) i = seg (encLanes Config.segTransform.toSegMaps key B) i := by
  rw [seg_encLanes_F, seg_encLanes_F, h]

theorem seg_decLanes_congr (key : Vector Word 8) {A B : Block} {i : Fin 8} (h : seg A i = seg B i) :
    seg (decLanes Config.segTransform.toSegMaps key A) i = seg (decLanes Config.segTransform.toSegMaps key B) i := by
  rw [seg_decLanes_G, seg_decLanes_G, h]

/-- Settles O47: ENC permutes and then works lane by lane, DEC works lane by lane and then permutes back. -/
theorem encAndDecLocality : Obligations.EncAndDecLocality := fun s h hp =>
  ⟨fun _ _ hi hB => ⟨_, _, exec_enc_ok h hp, exec_enc_ok h hp, fun _ hj =>
      seg_encLanes_congr s.key (seg_applyPerm_eq_of_agree h hp hi hB hj)⟩,
    fun _ _ hB => ⟨_, _, exec_dec_ok h hp, exec_dec_ok h hp, fun _ =>
      pos_applyPerm_invertTable_eq_of_agree h hp fun k hk => seg_decLanes_congr s.key (hB k hk)⟩⟩

/-! ### What another key reaches -/

theorem getElem_set_key_ne (key : Vector Word 8) (k : Word) {i j : Fin 8} (hij : i ≠ j) : (key.set j k)[i] = key[i] :=
  Vector.getElem_set_ne j.isLt i.isLt fun h => hij (Fin.ext h.symm)

theorem seg_encLanes_set_key_ne (key : Vector Word 8) (k : Word) (B : Block) {i j : Fin 8} (hij : i ≠ j) :
    seg (encLanes Config.segTransform.toSegMaps (key.set j k) B) i =
      seg (encLanes Config.segTransform.toSegMaps key B) i := by
  rw [seg_encLanes_F, seg_encLanes_F, getElem_set_key_ne key k hij]

/-- Lane j of ENC gives up the old key and takes the new one (R193, R198). -/
theorem seg_encLanes_set_key_same (key : Vector Word 8) (k : Word) (B : Block) (j : Fin 8) :
    seg (encLanes Config.segTransform.toSegMaps (key.set j k) B) j =
      seg (encLanes Config.segTransform.toSegMaps key B) j ^^^ key[j] ^^^ k := by
  have hnew : (key.set j k)[j] = k := Vector.getElem_set_self j.isLt
  calc seg (encLanes Config.segTransform.toSegMaps (key.set j k) B) j
      = F (seg B j) ^^^ k := by rw [seg_encLanes_F, hnew]
    _ = F (seg B j) ^^^ key[j] ^^^ key[j] ^^^ k := by rw [BitVec.xor_assoc (F _), BitVec.xor_self, BitVec.xor_zero]
    _ = seg (encLanes Config.segTransform.toSegMaps key B) j ^^^ key[j] ^^^ k := by rw [seg_encLanes_F]

theorem seg_decLanes_set_key_ne (key : Vector Word 8) (k : Word) (B : Block) {i j : Fin 8} (hij : i ≠ j) :
    seg (decLanes Config.segTransform.toSegMaps (key.set j k) B) i =
      seg (decLanes Config.segTransform.toSegMaps key B) i := by
  rw [seg_decLanes_G, seg_decLanes_G, getElem_set_key_ne key k hij]

/-- Settles O48: KEY[j] enters lane j alone, in ENC after the permutation and in DEC before its inverse. -/
theorem keySegmentTouchesOnlyItsLane : Obligations.KeySegmentTouchesOnlyItsLane := fun s j k h hp =>
  ⟨⟨_, _, exec_enc_ok h hp, exec_enc_ok h hp, fun _ => seg_encLanes_set_key_ne s.key k _,
      seg_encLanes_set_key_same s.key k _ j⟩,
    ⟨_, _, exec_dec_ok h hp, exec_dec_ok h hp, fun _ =>
      pos_applyPerm_invertTable_eq_of_agree h hp fun _ => seg_decLanes_set_key_ne s.key k s.blk⟩⟩

end Sys2Proof.Machine

namespace Sys2Proof.Machine

/-! ### Words that name no command (R97, R212) -/

theorem exists_decode_error {c : Word} (h : Statements.IllegalWord c) : ∃ e, decode c = .error e := by
  cases hd : decode c with
  | error e => exact ⟨e, rfl⟩
  | ok i => exact absurd h ((legalWordsHaveOneCommand c).1.mp ⟨i, hd⟩)

/-- A CMD word the decoder does not take raises ILLEGAL_CMD on the state without its access, and does nothing else (R96). -/
theorem step_illegal {s : State} {c : Word} {e : DecodeError} {rest : List BusEvent}
    (hb : s.bus = .write 4 0x000 c :: rest) (hd : decode c = .error e) :
    step s = .next (raiseAt (opField c) .illegalCmd { s with bus := rest }) := by
  rw [step_cons hb, perform, busWrite_cmd, runCommand_illegal hd, illegalWord]

/-- Settles O6: the decoder does not take the word, so its step only raises ILLEGAL_CMD. -/
theorem illegalWordChangesOnlyStatus : Obligations.IllegalWordChangesOnlyStatus := by
  intro s c rest hb hc
  obtain ⟨e, hd⟩ := exists_decode_error hc
  exact step_illegal hb hd

/-! ### The commands that touch only STATUS and the ports -/

theorem exec_nop (s : State) : exec .nop s = .next { s with err := 0, lastop := 0x00 } := rfl

theorem exec_clrHex (s : State) : exec .clrHex s = .next { clearHexPort s with err := 0, lastop := 0x0F } := rfl

theorem exec_clrSeed (s : State) : exec .clrSeed s = .next { clearSeedPort s with err := 0, lastop := 0x10 } := rfl

theorem exec_clrErr (s : State) : exec .clrErr s = .next { s with err := 0, eany := false, lastop := 0x11 } := rfl

/-- Settles O49: each word is its opcode with zeros above it, and each command finishes on the state with what it clears cleared. -/
theorem controlCommandEffects : Obligations.ControlCommandEffects :=
  ⟨by decide, fun s => ⟨exec_nop s, exec_clrHex s, exec_clrSeed s, exec_clrErr s⟩⟩

end Sys2Proof.Machine

namespace Sys2Proof.Machine

/-! ### How a command ends, read off ERR (R225, R226) -/

theorem errorCode_ne_zero (e : ErrorCode) : errorCode e ≠ 0 := by
  cases e <;> decide

/-- ERR is 0 only after success. -/
theorem Ends.succeeded {i : Instr} {s t : State} (h : Ends i s t) (ht : t.err = 0) :
    ∃ u, Writes i s u ∧ t = { u with err := 0, lastop := opcode i } := by
  cases h with
  | ok hw => exact ⟨_, hw, rfl⟩
  | error => exact absurd ht (errorCode_ne_zero _)

/-- ERR is an error's code only after a `raise`, on the state in which the command fails. -/
theorem Ends.failed {i : Instr} {s t : State} (h : Ends i s t) (ht : t.err ≠ 0) :
    ∃ e, t = raiseAt (opcode i) e (consumed i s) := by
  cases h with
  | ok => exact absurd rfl ht
  | error => exact ⟨_, rfl⟩

theorem Writes.eany {i : Instr} {s u : State} (h : Writes i s u) (hi : i ≠ .clrErr) : u.eany = s.eany := by
  cases h with
  | stickyError only => exact absurd only hi
  | data | hexPort | seedPort => rfl

/-- Settles O51: success writes no EANY, but for CLRERR. -/
theorem successKeepsStickyError : Obligations.SuccessKeepsStickyError := by
  intro i s t h ht hi
  obtain ⟨u, hw, rfl⟩ := (ends_of_exec h).succeeded ht
  exact hw.eany hi

/-! ### What a failed command leaves (R226) -/

theorem consumed_hexCommand {i : Instr} (hi : i = .ldblk ∨ ∃ k, i = .ldkey k) (s : State) :
    consumed i s = clearHexPort s := by
  obtain rfl | ⟨k, rfl⟩ := hi <;> rfl

theorem consumed_of_not_hexCommand {i : Instr} (hblk : i ≠ .ldblk) (hkey : ∀ k, i ≠ .ldkey k) (s : State) :
    consumed i s = s := by
  cases i
  case ldblk => exact absurd rfl hblk
  case ldkey k => exact absurd rfl (hkey k)
  all_goals rfl

theorem consumed_frame (i : Instr) (s : State) :
    consumed i s = { s with
      hexCnt := (consumed i s).hexCnt, hexBad := (consumed i s).hexBad, hexDig := (consumed i s).hexDig } := by
  cases i <;> rfl

/-- Settles O52: a failed command has raised on the state `consumed`, which differs from the one before in the hex port at most. -/
theorem failureChangesOnlyStatusAndHexPort : Obligations.FailureChangesOnlyStatusAndHexPort := by
  intro i s t h ht
  obtain ⟨e, rfl⟩ := (ends_of_exec h).failed ht
  refine ⟨rfl, rfl, ?_, ?_, ?_⟩
  · exact congrArg (raiseAt (opcode i) e) (consumed_frame i s)
  · rintro ⟨hblk, hkey⟩
    rw [consumed_of_not_hexCommand hblk hkey]
    exact ⟨rfl, rfl, rfl⟩
  · intro hi
    rw [consumed_hexCommand hi]
    exact ⟨rfl, rfl, rfl⟩

/-! ### STATUS is no operand of a command (R228) -/

/-- What a command answers when STATUS holds `e`, `a` and `l` and not what it holds in `s`: the next state `t` but for EANY. -/
def AnswersUnderStatus (i : Instr) (s t : State) (e : BitVec 4) (a : Bool) (l : BitVec 8) : Prop :=
  ∃ a', exec i { s with err := e, eany := a, lastop := l } = .next { t with eany := a' }

section

variable {s t : State} (e : BitVec 4) (a : Bool) (l : BitVec 8)

theorem tableCheck_withStatus : tableCheck { s with err := e, eany := a, lastop := l } = tableCheck s := rfl

theorem blockCommand_withStatus {i : Instr} {f : List Byte → Block → Block} (h : blockCommand i f s = .next t) :
    ∃ a', blockCommand i f { s with err := e, eany := a, lastop := l } = .next { t with eany := a' } := by
  unfold blockCommand at h ⊢
  rw [tableCheck_withStatus]
  split at h <;> cases h <;> exact ⟨_, rfl⟩

theorem BlockCommand.answersUnderStatus {i : Instr} (hi : BlockCommand i) (h : exec i s = .next t) :
    AnswersUnderStatus i s t e a l := by
  obtain ⟨f, hf⟩ := exec_blockCommand hi
  rw [hf] at h
  rw [AnswersUnderStatus, hf]
  exact blockCommand_withStatus e a l h

theorem ldblk_answersUnderStatus (h : exec .ldblk s = .next t) : AnswersUnderStatus .ldblk s t e a l := by
  simp only [exec, execLdblk] at h
  split at h <;> cases h
  · exact ⟨true, exec_ldblk_format ‹hexCheck 64 s = .format›⟩
  · exact ⟨true, exec_ldblk_size ‹hexCheck 64 s = .size›⟩
  · exact ⟨a, exec_ldblk_ok ‹hexCheck 64 s = .ok›⟩

theorem ldkey_answersUnderStatus {k : Fin 8} (h : exec (.ldkey k) s = .next t) : AnswersUnderStatus (.ldkey k) s t e a l := by
  simp only [exec, execLdkey] at h
  split at h <;> cases h
  · exact ⟨true, exec_ldkey_format k ‹hexCheck 8 s = .format›⟩
  · exact ⟨true, exec_ldkey_size k ‹hexCheck 8 s = .size›⟩
  · exact ⟨a, exec_ldkey_ok k ‹hexCheck 8 s = .ok›⟩

theorem deriveKey_answersUnderStatus (h : exec .deriveKey s = .next t) : AnswersUnderStatus .deriveKey s t e a l := by
  simp only [exec, execDeriveKey] at h
  split at h <;> cases h
  · exact ⟨true, if_pos ‹s.seedBad = true›⟩
  · exact ⟨a, if_neg ‹¬ s.seedBad = true›⟩

theorem derivePerm_answersUnderStatus {n : BitVec 9} (h : exec (.derivePerm n) s = .next t) :
    AnswersUnderStatus (.derivePerm n) s t e a l := by
  simp only [exec, execDerivePerm] at h
  split at h
  · next hn =>
    cases h
    exact ⟨true, if_pos hn⟩
  · next hn =>
    split at h <;> cases h
    · exact ⟨true, (if_neg hn).trans (if_pos ‹s.seedBad = true›)⟩
    · exact ⟨a, (if_neg hn).trans (if_neg ‹¬ s.seedBad = true›)⟩

theorem invert_answersUnderStatus (h : exec .invert s = .next t) : AnswersUnderStatus .invert s t e a l := by
  simp only [exec, execInvert] at h
  split at h <;> cases h
  · exact ⟨a, if_pos ‹isPerm (currentTable s) s.ptSize.toNat = true›⟩
  · exact ⟨true, if_neg ‹¬ isPerm (currentTable s) s.ptSize.toNat = true›⟩

end

/-- Settles O53, command by command: no check reads STATUS, and every end writes ERR and LASTOP anew. -/
theorem statusDoesNotInfluenceCommands : Obligations.StatusDoesNotInfluenceCommands := by
  intro i s t e a l h
  cases i
  case enc => exact BlockCommand.answersUnderStatus e a l (.inl rfl) h
  case dec => exact BlockCommand.answersUnderStatus e a l (.inr (.inl rfl)) h
  case perm => exact BlockCommand.answersUnderStatus e a l (.inr (.inr (.inl rfl))) h
  case invPerm => exact BlockCommand.answersUnderStatus e a l (.inr (.inr (.inr rfl))) h
  case ldblk => exact ldblk_answersUnderStatus e a l h
  case ldkey => exact ldkey_answersUnderStatus e a l h
  case deriveKey => exact deriveKey_answersUnderStatus e a l h
  case derivePerm => exact derivePerm_answersUnderStatus e a l h
  case invert => exact invert_answersUnderStatus e a l h
  case clrErr =>
    cases h
    exact ⟨false, rfl⟩
  all_goals
    cases h
    exact ⟨a, rfl⟩

/-- Settles O54: the failure changed STATUS alone, which no command reads, so the command answers the same ERR again, and every
failure leaves EANY 1. -/
theorem retryFailsAlike : Obligations.RetryFailsAlike := by
  intro i s t hblk hkey h ht
  obtain ⟨r, ht'⟩ := (ends_of_exec h).failed ht
  rw [consumed_of_not_hexCommand hblk hkey] at ht'
  obtain ⟨a, ha⟩ := statusDoesNotInfluenceCommands i s t (errorCode r) true (opcode i) h
  obtain ⟨heany, -⟩ := failureChangesOnlyStatusAndHexPort i _ _ ha ht
  obtain rfl : a = true := heany
  subst ht'
  exact ha

end Sys2Proof.Machine

namespace Sys2Proof.Machine

open Statements (commands)

/-! ### Runs of register writes (R60, R99, R100) -/

theorem perform_write {r : Reg} {off : Nat} (hr : regOffset r = some off) (hcmd : off ≠ 0x000) (v : Word) (s : State) :
    perform (.write 4 off v) s = .next (writeReg r v s) := by
  rw [perform, busWrite_legal ⟨rfl, regOffset_legal hr⟩, if_neg hcmd, regAt_regOffset r off hr]

/-- `wr NAME, v` is one write to the register. -/
theorem performAll_wr {r : Reg} {off : Nat} (hr : regOffset r = some off) (hcmd : off ≠ 0x000) (v : Word) (s : State) :
    performAll (expandLine (.wr (.reg r) v)) s = .next (writeReg r v s) := by
  simp only [expandLine, wrLine, targetOffset, hr]
  exact performAll_cons_next (perform_write hr hcmd v s) []

/-- Writes to a family of registers, one after the other. -/
theorem performAll_writes {α : Type} {r : α → Reg} {off : α → Nat} (hr : ∀ a, regOffset (r a) = some (off a))
    (hcmd : ∀ a, off a ≠ 0x000) (v : α → Word) (as : List α) (s : State) :
    performAll (as.map fun a => .write 4 (off a) (v a)) s = .next (as.foldl (fun u a => writeReg (r a) (v a) u) s) := by
  induction as generalizing s with
  | nil => rfl
  | cons a as ih => rw [List.map_cons, performAll_cons_next (perform_write (hr a) (hcmd a) (v a) s), ih, List.foldl_cons]

/-- Writes to BLK_W replace the segments they name, and only those (R21). -/
theorem foldl_writeReg_blkW (ws : Vector Word 8) (is : List (Fin 8)) (s : State) :
    is.foldl (fun u i => writeReg (.blkW i) ws[i] u) s =
      { s with blk := cat8 (Vector.ofFn fun j => if j ∈ is then ws[j] else seg s.blk j) } := by
  induction is generalizing s with
  | nil => simp
  | cons i is ih =>
    have hseg (j : Fin 8) : (if j ∈ is then ws[j] else seg (setSeg s.blk i ws[i]) j) =
        if j ∈ i :: is then ws[j] else seg s.blk j := by
      by_cases hj : j = i
      · subst hj
        simp
      · simp [hj]
    rw [List.foldl_cons, ih]
    simp only [writeReg, hseg]

/-- Writes to KEY replace the segments they name, and only those (R22). -/
theorem foldl_writeReg_key (ks : Vector Word 8) (is : List (Fin 8)) (s : State) :
    is.foldl (fun u i => writeReg (.key i) ks[i] u) s =
      { s with key := Vector.ofFn fun j => if j ∈ is then ks[j] else s.key[j] } := by
  induction is generalizing s with
  | nil => simp
  | cons i is ih =>
    have hkey (j : Fin 8) : (if j ∈ is then ks[j] else (s.key.set i ks[i])[j]) =
        if j ∈ i :: is then ks[j] else s.key[j] := by
      by_cases hj : j = i
      · subst hj
        simp
      · rw [getElem_set_key_ne s.key ks[i] hj]
        simp [hj]
    rw [List.foldl_cons, ih]
    simp only [writeReg, hkey]

/-- `wrblk` replaces the whole block (R100). -/
theorem performAll_wrblk (ws : Vector Word 8) (s : State) :
    performAll (expandLine (.wrblk ws)) s = .next { s with blk := cat8 ws } := by
  rw [expandLine, performAll_writes (r := .blkW) (fun _ => rfl) (fun _ => by omega), foldl_writeReg_blkW]
  simp

/-- `wrkey` replaces the whole key (R100). -/
theorem performAll_wrkey (ks : Vector Word 8) (s : State) :
    performAll (expandLine (.wrkey ks)) s = .next { s with key := ks } := by
  rw [expandLine, performAll_writes (r := .key) (fun _ => rfl) (fun _ => by omega), foldl_writeReg_key]
  simp

/-! ### Reset, and the way to its values without it (R250, R252) -/

/-- Settles O56: the step is the reset alone, and PT is its draw. -/
theorem resetClearsEverythingButTheTable : Obligations.ResetClearsEverythingButTheTable := by
  intro s rest hb
  exact ⟨_, step_cons hb⟩

/-- CLRHEX, CLRSEED, CLRERR, NOP clear both ports and STATUS: NOP comes last, so LASTOP is its opcode 0. -/
theorem performAll_clearPortsAndStatus (s : State) :
    performAll (commands [.clrHex, .clrSeed, .clrErr, .nop]) s =
      .next { clearSeedPort (clearHexPort s) with err := 0, eany := false, lastop := 0 } :=
  (performAll_commands_cons rfl (exec_clrHex s) _).trans <|
    (performAll_commands_cons rfl (exec_clrSeed _) _).trans <|
    (performAll_commands_cons rfl (exec_clrErr _) _).trans <|
    performAll_commands_cons rfl (exec_nop _) []

theorem cat8_replicate_zero : cat8 (Vector.replicate 8 0) = 0 := by
  rw [cat8_eq]
  decide

/-- W_LO and then W_HI written with 0 leave nothing of W (R23). -/
theorem writeReg_wHi_wLo_zero (s : State) : writeReg .wHi 0 (writeReg .wLo 0 s) = { s with w := 0 } := by
  have hlow : (s.w.extractLsb' 32 16 ++ (0 : Word)).extractLsb' 0 32 = 0 := extract_append_low _ _
  simp only [writeReg, hlow]
  rfl

/-- Settles O58: the commands clear STATUS and the ports, and the writes reach the registers that are left, but PT. -/
theorem commandsAndWritesReachResetValues : Obligations.CommandsAndWritesReachResetValues := by
  intro s
  simp only [List.append_assoc]
  rw [performAll_append_next (performAll_clearPortsAndStatus s), performAll_append_next (performAll_wrblk _ _),
    performAll_append_next (performAll_wrkey _ _), performAll_append_next (performAll_wr (r := .wLo) rfl (by decide) _ _),
    performAll_append_next (performAll_wr (r := .wHi) rfl (by decide) _ _),
    performAll_wr (r := .ptSize) rfl (by decide), writeReg_wHi_wLo_zero, cat8_replicate_zero]
  rfl

end Sys2Proof.Machine
